-- ==== Sys2Proof/Word.lean ====
section
/-! DEFINITION. The word types: bytes of storage, 64-bit registers and addresses, 32-bit instruction words, register numbers. -/

namespace Sys2Proof

/-- A byte of storage, the unit of addressing (10_state.md R42). -/
abbrev Byte := BitVec 8

/-- The content of a register, and an effective address: `XLEN` = 64 bits (00_scope.md R9, R11). -/
abbrev Word := BitVec 64

/-- An instruction word: 32 bits, bit 31 the most significant (30_encoding.md R80). -/
abbrev InstrWord := BitVec 32

/-- The number of a general purpose register, 0 to 31 (10_state.md R30, 30_encoding.md R94). -/
abbrev RegNum := Fin 32

end Sys2Proof
end

