-- ==== Sys2Proof/Syntax.lean ====
section
/-! DEFINITION. The instructions: one constructor for each row of spec/opcode_table.json, in the order of the table (30_encoding.md R95, R97). -/

namespace Sys2Proof

/-- The 28 fixed-point loads (00_scope.md R5). `rt`, `rtp`, `ra`, `rb` are register numbers (R94), `d`, `ds`, `dq` the displacement fields
as they stand in the word: 16, 14 and 12 bits (R81 to R84). Whether the form is valid is a matter of WellFormed.lean (R100). -/
inductive Instr where
  /-- `lbz RT,D(RA)`, Load Byte and Zero: D-Form (R120). -/
  | lbz (rt ra : RegNum) (d : BitVec 16)
  /-- `lbzx RT,RA,RB`, Load Byte and Zero Indexed: X-Form (R121). -/
  | lbzx (rt ra rb : RegNum)
  /-- `lbzu RT,D(RA)`, Load Byte and Zero with Update: D-Form (R122). -/
  | lbzu (rt ra : RegNum) (d : BitVec 16)
  /-- `lbzux RT,RA,RB`, Load Byte and Zero with Update Indexed: X-Form (R123). -/
  | lbzux (rt ra rb : RegNum)
  /-- `lhz RT,D(RA)`, Load Halfword and Zero: D-Form (R130). -/
  | lhz (rt ra : RegNum) (d : BitVec 16)
  /-- `lhzx RT,RA,RB`, Load Halfword and Zero Indexed: X-Form (R131). -/
  | lhzx (rt ra rb : RegNum)
  /-- `lhzu RT,D(RA)`, Load Halfword and Zero with Update: D-Form (R132). -/
  | lhzu (rt ra : RegNum) (d : BitVec 16)
  /-- `lhzux RT,RA,RB`, Load Halfword and Zero with Update Indexed: X-Form (R133). -/
  | lhzux (rt ra rb : RegNum)
  /-- `lha RT,D(RA)`, Load Halfword Algebraic: D-Form (R134). -/
  | lha (rt ra : RegNum) (d : BitVec 16)
  /-- `lhax RT,RA,RB`, Load Halfword Algebraic Indexed: X-Form (R135). -/
  | lhax (rt ra rb : RegNum)
  /-- `lhau RT,D(RA)`, Load Halfword Algebraic with Update: D-Form (R136). -/
  | lhau (rt ra : RegNum) (d : BitVec 16)
  /-- `lhaux RT,RA,RB`, Load Halfword Algebraic with Update Indexed: X-Form (R137). -/
  | lhaux (rt ra rb : RegNum)
  /-- `lwz RT,D(RA)`, Load Word and Zero: D-Form (R140). -/
  | lwz (rt ra : RegNum) (d : BitVec 16)
  /-- `lwzx RT,RA,RB`, Load Word and Zero Indexed: X-Form (R141). -/
  | lwzx (rt ra rb : RegNum)
  /-- `lwzu RT,D(RA)`, Load Word and Zero with Update: D-Form (R142). -/
  | lwzu (rt ra : RegNum) (d : BitVec 16)
  /-- `lwzux RT,RA,RB`, Load Word and Zero with Update Indexed: X-Form (R143). -/
  | lwzux (rt ra rb : RegNum)
  /-- `lwa RT,DS(RA)`, Load Word Algebraic: DS-Form (R144). -/
  | lwa (rt ra : RegNum) (ds : BitVec 14)
  /-- `lwax RT,RA,RB`, Load Word Algebraic Indexed: X-Form (R145). -/
  | lwax (rt ra rb : RegNum)
  /-- `lwaux RT,RA,RB`, Load Word Algebraic with Update Indexed: X-Form (R146). -/
  | lwaux (rt ra rb : RegNum)
  /-- `ld RT,DS(RA)`, Load Doubleword: DS-Form (R150). -/
  | ld (rt ra : RegNum) (ds : BitVec 14)
  /-- `ldx RT,RA,RB`, Load Doubleword Indexed: X-Form (R151). -/
  | ldx (rt ra rb : RegNum)
  /-- `ldu RT,DS(RA)`, Load Doubleword with Update: DS-Form (R152). -/
  | ldu (rt ra : RegNum) (ds : BitVec 14)
  /-- `ldux RT,RA,RB`, Load Doubleword with Update Indexed: X-Form (R153). -/
  | ldux (rt ra rb : RegNum)
  /-- `lq RTp,DQ(RA)`, Load Quadword: DQ-Form (R160). -/
  | lq (rtp ra : RegNum) (dq : BitVec 12)
  /-- `lhbrx RT,RA,RB`, Load Halfword Byte-Reverse Indexed: X-Form (R171). -/
  | lhbrx (rt ra rb : RegNum)
  /-- `lwbrx RT,RA,RB`, Load Word Byte-Reverse Indexed: X-Form (R172). -/
  | lwbrx (rt ra rb : RegNum)
  /-- `ldbrx RT,RA,RB`, Load Doubleword Byte-Reverse Indexed: X-Form (R173). -/
  | ldbrx (rt ra rb : RegNum)
  /-- `lmw RT,D(RA)`, Load Multiple Word: D-Form (R180). -/
  | lmw (rt ra : RegNum) (d : BitVec 16)
deriving DecidableEq, Repr

/-- The names of the rows of spec/opcode_table.json. -/
inductive Mnemonic where
  | lbz | lbzx | lbzu | lbzux
  | lhz | lhzx | lhzu | lhzux | lha | lhax | lhau | lhaux
  | lwz | lwzx | lwzu | lwzux | lwa | lwax | lwaux
  | ld | ldx | ldu | ldux
  | lq
  | lhbrx | lwbrx | ldbrx
  | lmw
deriving DecidableEq, Repr

/-- The row an instruction belongs to. -/
def Instr.mnemonic : Instr → Mnemonic
  | .lbz _ _ _ => .lbz
  | .lbzx _ _ _ => .lbzx
  | .lbzu _ _ _ => .lbzu
  | .lbzux _ _ _ => .lbzux
  | .lhz _ _ _ => .lhz
  | .lhzx _ _ _ => .lhzx
  | .lhzu _ _ _ => .lhzu
  | .lhzux _ _ _ => .lhzux
  | .lha _ _ _ => .lha
  | .lhax _ _ _ => .lhax
  | .lhau _ _ _ => .lhau
  | .lhaux _ _ _ => .lhaux
  | .lwz _ _ _ => .lwz
  | .lwzx _ _ _ => .lwzx
  | .lwzu _ _ _ => .lwzu
  | .lwzux _ _ _ => .lwzux
  | .lwa _ _ _ => .lwa
  | .lwax _ _ _ => .lwax
  | .lwaux _ _ _ => .lwaux
  | .ld _ _ _ => .ld
  | .ldx _ _ _ => .ldx
  | .ldu _ _ _ => .ldu
  | .ldux _ _ _ => .ldux
  | .lq _ _ _ => .lq
  | .lhbrx _ _ _ => .lhbrx
  | .lwbrx _ _ _ => .lwbrx
  | .ldbrx _ _ _ => .ldbrx
  | .lmw _ _ _ => .lmw

end Sys2Proof
end

