-- ==== Sys2Proof/Config.lean ====
section
/-! DEFINITION. The parameters of the model (00_scope.md R8): what is fixed, the type of the OPEN ones, and the values they have at reset. -/

namespace Sys2Proof

/-- Where the operand fields of a row stand: the lowest bit of RT (RTp of `lq`), of RA, and of the third field, which is RB, D, DS or DQ
(30_encoding.md R85). A field is as wide as its operand. -/
structure FieldPlaces where
  rt    : Nat
  ra    : Nat
  third : Nat
deriving DecidableEq, Repr

/-- One row of `DecodeTable`: a word `w` selects it when `w and mask = pattern` (30_encoding.md R95), and then has the row's mnemonic and the
operands at the row's places (R96). -/
structure Row where
  name    : Mnemonic
  pattern : InstrWord
  mask    : InstrWord
  fields  : FieldPlaces
deriving DecidableEq, Repr

end Sys2Proof

namespace Sys2Proof.Config

/-- Width in bits of a register and of an address: fixed (00_scope.md R8, R9). -/
def xlen : Nat := 64

/-- Number of general purpose registers: fixed (00_scope.md R8, 10_state.md R30). -/
def ngpr : Nat := 32

/-- Length of every instruction in bytes: fixed (00_scope.md R8, 30_encoding.md R80). -/
def ilen : Nat := 4

/-- Number of byte addresses of storage (10_state.md R42). -/
def addressSpace : Nat := 2 ^ 64

/-- A run of byte addresses `base`, `base + 1`, .., `base + size - 1` that the platform lets a load read. -/
structure Region where
  base : Nat
  size : Nat
deriving DecidableEq, Repr

/-- The OPEN parameters and the configuration value `DecodeTable`, which a step reads and no step changes (00_scope.md R8). They are plain data
in State, so a statement about every state covers every value of them. -/
structure Platform where
  /-- `MisalignedOK`: a data access whose address is not a multiple of its size is performed (20_memory.md R53, R58). -/
  misalignedOK : Bool
  /-- `Readable`: the byte addresses that may be read, those of some region (20_memory.md R66).
  That the predicate is held as a list of regions is a DESIGN CHOICE, safe (log 7). -/
  readable : List Region
  /-- `EndAddr`: the value of `pc` at which a run is over (70_reset_and_hazards.md R224). -/
  endAddr : Word
  /-- `DecodeTable`: the map from instruction words to mnemonic and fields (30_encoding.md R96). Its rows are to be disjoint (R98); where two
  rows match one word, the first is taken. DESIGN CHOICE, unsafe (log 23). -/
  decodeTable : List Row
deriving DecidableEq, Repr

/-- The value of `EndAddr` at reset. DESIGN CHOICE, unsafe: the parameter is OPEN (log 6). -/
def resetEndAddr : Word := 0xFFFFFFFFFFFFFFFC

/-- The value of `EntryPoint` at reset. DESIGN CHOICE, unsafe: the parameter is OPEN (log 3). -/
def resetEntryPoint : Word := 0

/-- The value of `LE` at reset, Big-Endian mode. DESIGN CHOICE, unsafe: the parameter is OPEN and has no default (log 4). -/
def resetLE : Bool := false

/-- The value of each register of `InitGPR` at reset. DESIGN CHOICE, unsafe: `InitGPR` is unspecified (log 1). -/
def resetGPR : Word := 0

/-- `Readable` with its default, every address (00_scope.md R8, 20_memory.md R66). -/
def everyAddress : List Region := [⟨0, addressSpace⟩]

/-- The platform at reset: the spec's defaults of `MisalignedOK` and `Readable` (00_scope.md R8), `resetEndAddr`, and a decode table. -/
def resetPlatform (table : List Row) : Platform :=
  { misalignedOK := true, readable := everyAddress, endAddr := resetEndAddr, decodeTable := table }

end Sys2Proof.Config
end

