-- ==== Sys2Proof/Machine/Bytes.lean ====
section
/-! DEFINITION. Byte order, decided once: the number that a list of bytes in address order stands for, and the bytes of a number (20_memory.md R51). -/

namespace Sys2Proof

/-- The number that bytes in address order stand for, the first byte the most significant: the sum of byte i times 256^(n-1-i)
(20_memory.md R51, `MemReadBE`). -/
def beValue : List Byte → Nat
  | [] => 0
  | b :: bs => b.toNat * 256 ^ bs.length + beValue bs

/-- The number that bytes in address order stand for, the first byte the least significant: the sum of byte i times 256^i
(20_memory.md R51, `MemReadLE`). -/
def leValue : List Byte → Nat
  | [] => 0
  | b :: bs => b.toNat + 256 * leValue bs

/-- `n` bytes in address order assembled in the byte order of the mode (20_memory.md R52). -/
def assemble (le : Bool) (n : Nat) (bs : List Byte) : BitVec (8 * n) :=
  BitVec.ofNat (8 * n) (if le then leValue bs else beValue bs)

/-- The `n` bytes of a value, the least significant first. -/
def bytesLE (n : Nat) (v : BitVec (8 * n)) : List Byte :=
  (List.range n).map (fun i => v.extractLsb' (8 * i) 8)

/-- The `n` bytes of a value in address order, in the byte order of the mode. -/
def layout (le : Bool) (n : Nat) (v : BitVec (8 * n)) : List Byte :=
  if le then bytesLE n v else (bytesLE n v).reverse

/-- The `n` bytes of a value in the opposite order (45_load_byte_reverse.md R170): its least significant byte becomes the most
significant one. -/
def reverseBytes (n : Nat) (v : BitVec (8 * n)) : BitVec (8 * n) :=
  BitVec.ofNat (8 * n) (beValue (bytesLE n v))

end Sys2Proof
end

