-- ==== Sys2Proof/Decode.lean ====
section
/-! DEFINITION. The decoder, total on every word and every list of bytes, rejecting by name, and after it the encoder. The opcode numbers
and bit positions are those of 30_encoding.md R81 to R85 and R95, which the spec supplies from general knowledge (UNVERIFIED, unsafe, log 9). -/

namespace Sys2Proof

/-- Why bytes are no instruction. -/
inductive DecodeReject where
  /-- The word matches no row of the table: `IllegalInstruction(w)` (30_encoding.md R99). -/
  | noRow (w : InstrWord)
  /-- Fewer than `ILEN` = 4 bytes were given. A fetch always gives four, so no step meets this. -/
  | tooFewBytes
deriving DecidableEq, Repr

/-- The places of a D-Form row (30_encoding.md R81, R85). -/
def dPlaces : FieldPlaces := ⟨21, 16, 0⟩
/-- The places of a DS-Form row (30_encoding.md R82, R85). -/
def dsPlaces : FieldPlaces := ⟨21, 16, 2⟩
/-- The places of a DQ-Form row (30_encoding.md R83, R85). -/
def dqPlaces : FieldPlaces := ⟨21, 16, 4⟩
/-- The places of an X-Form row (30_encoding.md R84, R85). -/
def xPlaces : FieldPlaces := ⟨21, 16, 11⟩

/-- `DecodeTable` with its default, the opcode map (30_encoding.md R95, R96). -/
def decodeTable : List Row := [
  ⟨.lbz, 0x88000000, 0xFC000000, dPlaces⟩,
  ⟨.lbzx, 0x7C0000AE, 0xFC0007FF, xPlaces⟩,
  ⟨.lbzu, 0x8C000000, 0xFC000000, dPlaces⟩,
  ⟨.lbzux, 0x7C0000EE, 0xFC0007FF, xPlaces⟩,
  ⟨.lhz, 0xA0000000, 0xFC000000, dPlaces⟩,
  ⟨.lhzx, 0x7C00022E, 0xFC0007FF, xPlaces⟩,
  ⟨.lhzu, 0xA4000000, 0xFC000000, dPlaces⟩,
  ⟨.lhzux, 0x7C00026E, 0xFC0007FF, xPlaces⟩,
  ⟨.lha, 0xA8000000, 0xFC000000, dPlaces⟩,
  ⟨.lhax, 0x7C0002AE, 0xFC0007FF, xPlaces⟩,
  ⟨.lhau, 0xAC000000, 0xFC000000, dPlaces⟩,
  ⟨.lhaux, 0x7C0002EE, 0xFC0007FF, xPlaces⟩,
  ⟨.lwz, 0x80000000, 0xFC000000, dPlaces⟩,
  ⟨.lwzx, 0x7C00002E, 0xFC0007FF, xPlaces⟩,
  ⟨.lwzu, 0x84000000, 0xFC000000, dPlaces⟩,
  ⟨.lwzux, 0x7C00006E, 0xFC0007FF, xPlaces⟩,
  ⟨.lwa, 0xE8000002, 0xFC000003, dsPlaces⟩,
  ⟨.lwax, 0x7C0002AA, 0xFC0007FF, xPlaces⟩,
  ⟨.lwaux, 0x7C0002EA, 0xFC0007FF, xPlaces⟩,
  ⟨.ld, 0xE8000000, 0xFC000003, dsPlaces⟩,
  ⟨.ldx, 0x7C00002A, 0xFC0007FF, xPlaces⟩,
  ⟨.ldu, 0xE8000001, 0xFC000003, dsPlaces⟩,
  ⟨.ldux, 0x7C00006A, 0xFC0007FF, xPlaces⟩,
  ⟨.lq, 0xE0000000, 0xFC00000F, dqPlaces⟩,
  ⟨.lhbrx, 0x7C00062C, 0xFC0007FF, xPlaces⟩,
  ⟨.lwbrx, 0x7C00042C, 0xFC0007FF, xPlaces⟩,
  ⟨.ldbrx, 0x7C000428, 0xFC0007FF, xPlaces⟩,
  ⟨.lmw, 0xB8000000, 0xFC000000, dPlaces⟩]

/-- A five-bit register field, at bits `lo + 4` down to `lo` of the word. -/
def regField (w : InstrWord) (lo : Nat) : RegNum := (w.extractLsb' lo 5).toFin

/-- Field RT, and RTp of `lq`: bits 25:21 by default (30_encoding.md R85). -/
def fieldRT (p : FieldPlaces) (w : InstrWord) : RegNum := regField w p.rt
/-- Field RA: bits 20:16 by default (30_encoding.md R85). -/
def fieldRA (p : FieldPlaces) (w : InstrWord) : RegNum := regField w p.ra
/-- Field RB: bits 15:11 by default (30_encoding.md R85). -/
def fieldRB (p : FieldPlaces) (w : InstrWord) : RegNum := regField w p.third
/-- Field D: bits 15:0 by default (30_encoding.md R85). -/
def fieldD (p : FieldPlaces) (w : InstrWord) : BitVec 16 := w.extractLsb' p.third 16
/-- Field DS: bits 15:2 by default (30_encoding.md R85). -/
def fieldDS (p : FieldPlaces) (w : InstrWord) : BitVec 14 := w.extractLsb' p.third 14
/-- Field DQ: bits 15:4 by default (30_encoding.md R85). -/
def fieldDQ (p : FieldPlaces) (w : InstrWord) : BitVec 12 := w.extractLsb' p.third 12

/-- The instruction of a row, its operands read from the fields at the row's places (30_encoding.md R85, R96). -/
def instrOfRow (r : Row) (w : InstrWord) : Instr :=
  match r.name with
  | .lbz => .lbz (fieldRT r.fields w) (fieldRA r.fields w) (fieldD r.fields w)
  | .lbzx => .lbzx (fieldRT r.fields w) (fieldRA r.fields w) (fieldRB r.fields w)
  | .lbzu => .lbzu (fieldRT r.fields w) (fieldRA r.fields w) (fieldD r.fields w)
  | .lbzux => .lbzux (fieldRT r.fields w) (fieldRA r.fields w) (fieldRB r.fields w)
  | .lhz => .lhz (fieldRT r.fields w) (fieldRA r.fields w) (fieldD r.fields w)
  | .lhzx => .lhzx (fieldRT r.fields w) (fieldRA r.fields w) (fieldRB r.fields w)
  | .lhzu => .lhzu (fieldRT r.fields w) (fieldRA r.fields w) (fieldD r.fields w)
  | .lhzux => .lhzux (fieldRT r.fields w) (fieldRA r.fields w) (fieldRB r.fields w)
  | .lha => .lha (fieldRT r.fields w) (fieldRA r.fields w) (fieldD r.fields w)
  | .lhax => .lhax (fieldRT r.fields w) (fieldRA r.fields w) (fieldRB r.fields w)
  | .lhau => .lhau (fieldRT r.fields w) (fieldRA r.fields w) (fieldD r.fields w)
  | .lhaux => .lhaux (fieldRT r.fields w) (fieldRA r.fields w) (fieldRB r.fields w)
  | .lwz => .lwz (fieldRT r.fields w) (fieldRA r.fields w) (fieldD r.fields w)
  | .lwzx => .lwzx (fieldRT r.fields w) (fieldRA r.fields w) (fieldRB r.fields w)
  | .lwzu => .lwzu (fieldRT r.fields w) (fieldRA r.fields w) (fieldD r.fields w)
  | .lwzux => .lwzux (fieldRT r.fields w) (fieldRA r.fields w) (fieldRB r.fields w)
  | .lwa => .lwa (fieldRT r.fields w) (fieldRA r.fields w) (fieldDS r.fields w)
  | .lwax => .lwax (fieldRT r.fields w) (fieldRA r.fields w) (fieldRB r.fields w)
  | .lwaux => .lwaux (fieldRT r.fields w) (fieldRA r.fields w) (fieldRB r.fields w)
  | .ld => .ld (fieldRT r.fields w) (fieldRA r.fields w) (fieldDS r.fields w)
  | .ldx => .ldx (fieldRT r.fields w) (fieldRA r.fields w) (fieldRB r.fields w)
  | .ldu => .ldu (fieldRT r.fields w) (fieldRA r.fields w) (fieldDS r.fields w)
  | .ldux => .ldux (fieldRT r.fields w) (fieldRA r.fields w) (fieldRB r.fields w)
  | .lq => .lq (fieldRT r.fields w) (fieldRA r.fields w) (fieldDQ r.fields w)
  | .lhbrx => .lhbrx (fieldRT r.fields w) (fieldRA r.fields w) (fieldRB r.fields w)
  | .lwbrx => .lwbrx (fieldRT r.fields w) (fieldRA r.fields w) (fieldRB r.fields w)
  | .ldbrx => .ldbrx (fieldRT r.fields w) (fieldRA r.fields w) (fieldRB r.fields w)
  | .lmw => .lmw (fieldRT r.fields w) (fieldRA r.fields w) (fieldD r.fields w)

/-- Whether a word selects a row (30_encoding.md R95). -/
def Row.selects (r : Row) (w : InstrWord) : Bool := w &&& r.mask == r.pattern

/-- Decoding by a given table (30_encoding.md R96): total on all 2^32 words. The step decodes by the table of the platform; the table is a
configuration value, so that a wrong number is a wrong table. -/
def decodeBy (table : List Row) (w : InstrWord) : Except DecodeReject Instr :=
  match table.find? (fun r => r.selects w) with
  | some r => .ok (instrOfRow r w)
  | none => .error (.noRow w)

/-- Decoding by the default table (30_encoding.md R95, R96). -/
def decode (w : InstrWord) : Except DecodeReject Instr := decodeBy decodeTable w

/-- Decoding from bytes in address order by the default table, in the byte order of the mode (20_memory.md R55): the instruction and the
bytes after it. -/
def decodeBytes (le : Bool) : List Byte → Except DecodeReject (Instr × List Byte)
  | b0 :: b1 :: b2 :: b3 :: rest =>
    match decode (assemble le 4 [b0, b1, b2, b3]) with
    | .ok i => .ok (i, rest)
    | .error e => .error e
  | _ => .error .tooFewBytes

/-- A register number as the five bits of its field. -/
def regBits (r : RegNum) : BitVec 5 := BitVec.ofFin r

/-- The D-Form word (30_encoding.md R81). -/
def dForm (po : BitVec 6) (rt ra : RegNum) (d : BitVec 16) : InstrWord :=
  po ++ regBits rt ++ regBits ra ++ d

/-- The DS-Form word (30_encoding.md R82). -/
def dsForm (po : BitVec 6) (rt ra : RegNum) (ds : BitVec 14) (xo : BitVec 2) : InstrWord :=
  po ++ regBits rt ++ regBits ra ++ ds ++ xo

/-- The DQ-Form word, its reserved bits 3:0 zero (30_encoding.md R83, R101). -/
def dqForm (po : BitVec 6) (rtp ra : RegNum) (dq : BitVec 12) : InstrWord :=
  po ++ regBits rtp ++ regBits ra ++ dq ++ (0 : BitVec 4)

/-- The X-Form word, its reserved bit 0 zero (30_encoding.md R84, R101). -/
def xForm (po : BitVec 6) (rt ra rb : RegNum) (xo : BitVec 10) : InstrWord :=
  po ++ regBits rt ++ regBits ra ++ regBits rb ++ xo ++ (0 : BitVec 1)

/-- The word of an instruction in the default table, from the formats and the PO and XO columns of the opcode map (30_encoding.md R81 to R84, R95). -/
def encode : Instr → InstrWord
  | .lbz rt ra d => dForm 34 rt ra d
  | .lbzx rt ra rb => xForm 31 rt ra rb 87
  | .lbzu rt ra d => dForm 35 rt ra d
  | .lbzux rt ra rb => xForm 31 rt ra rb 119
  | .lhz rt ra d => dForm 40 rt ra d
  | .lhzx rt ra rb => xForm 31 rt ra rb 279
  | .lhzu rt ra d => dForm 41 rt ra d
  | .lhzux rt ra rb => xForm 31 rt ra rb 311
  | .lha rt ra d => dForm 42 rt ra d
  | .lhax rt ra rb => xForm 31 rt ra rb 343
  | .lhau rt ra d => dForm 43 rt ra d
  | .lhaux rt ra rb => xForm 31 rt ra rb 375
  | .lwz rt ra d => dForm 32 rt ra d
  | .lwzx rt ra rb => xForm 31 rt ra rb 23
  | .lwzu rt ra d => dForm 33 rt ra d
  | .lwzux rt ra rb => xForm 31 rt ra rb 55
  | .lwa rt ra ds => dsForm 58 rt ra ds 2
  | .lwax rt ra rb => xForm 31 rt ra rb 341
  | .lwaux rt ra rb => xForm 31 rt ra rb 373
  | .ld rt ra ds => dsForm 58 rt ra ds 0
  | .ldx rt ra rb => xForm 31 rt ra rb 21
  | .ldu rt ra ds => dsForm 58 rt ra ds 1
  | .ldux rt ra rb => xForm 31 rt ra rb 53
  | .lq rtp ra dq => dqForm 56 rtp ra dq
  | .lhbrx rt ra rb => xForm 31 rt ra rb 790
  | .lwbrx rt ra rb => xForm 31 rt ra rb 534
  | .ldbrx rt ra rb => xForm 31 rt ra rb 532
  | .lmw rt ra d => dForm 46 rt ra d

/-- The instruction the decoder reads from the bits of a table row, laid out as four bytes, most significant first. Bits above `nbits`
are zero. -/
def decodeTableWord (nbits w : Nat) : Option Instr :=
  match decodeBytes false (layout false 4 (BitVec.ofNat 32 (w % 2 ^ nbits))) with
  | .ok (i, _) => some i
  | .error _ => none

end Sys2Proof
end

