-- ==== Sys2Proof/Machine/State.lean ====
section
/-! DEFINITION. The state of the machine as plain data, the reasons a step stops, and the machine after reset. -/

namespace Sys2Proof.Machine

/-- Storage (10_state.md R42): the listed bytes, addresses strictly rising, no entry equal to what an unlisted address reads as. -/
abbrev Memory := List Host.Cell

/-- The whole state, the tuple (x, pc, LE, Mem) of 10_state.md, and the constants of a run that a step reads (00_scope.md R8). -/
structure State where
  /-- The 32 general purpose registers, none of them hardwired (10_state.md R30, R31). -/
  x : Vector Word 32
  /-- The address of the instruction being executed (10_state.md R35). -/
  pc : Word
  /-- The byte-order mode: false is Big-Endian mode, true Little-Endian mode (10_state.md R38). -/
  le : Bool
  /-- Storage (10_state.md R41 to R43). -/
  mem : Memory
  /-- `MisalignedOK`, `Readable`, `EndAddr` and `DecodeTable` (00_scope.md R8). -/
  platform : Config.Platform
deriving DecidableEq, Repr

/-- What an `Alignment` fault records (60_exceptions.md R190). -/
inductive AlignmentInfo where
  /-- The instruction word, for `lmw` in Little-Endian mode. -/
  | word (w : InstrWord)
  /-- The address, for a misaligned access. -/
  | addr (a : Word)
deriving DecidableEq, Repr

/-- The four faults (60_exceptions.md R190). Each is terminal: the state is as before the instruction, no handler is entered (R195). All
are safe: the model stops where the hardware goes on in a handler that the spec does not describe (log 10). -/
inductive Fault where
  /-- Raised by the step for a word that matches no row (30_encoding.md R99) and by `lq` with RTp = RA (R102, R191). Safe. -/
  | illegalInstruction (w : InstrWord)
  /-- Raised by the update forms, `lq` and `lmw` on an invalid form (30_encoding.md R100, 60_exceptions.md R193). Safe. -/
  | invalidForm (w : InstrWord)
  /-- Raised by `lmw` in Little-Endian mode (60_exceptions.md R192), and by every access that is misaligned when `MisalignedOK` is
  false (20_memory.md R53). Safe. -/
  | alignment (info : AlignmentInfo)
  /-- Raised by a fetch or load that touches a byte that is not readable, with its address (20_memory.md R66, 60_exceptions.md R194). Safe. -/
  | storageFault (a : Word)
deriving DecidableEq, Repr

/-- The reasons a step gives no meaning. -/
inductive Refusal where
  /-- Raised by no arm of exec: every instruction of the table has its meaning. Safe. -/
  | notModelled (mnemonic : String)
  /-- Raised by the step when `pc` equals `EndAddr`: the run is over and the word there is not fetched
  (70_reset_and_hazards.md R223, R224). Safe (log 6). -/
  | endOfRun
deriving DecidableEq, Repr

/-- The outcome of a step or of an instruction (00_scope.md R18). -/
abbrev Out := Host.Outcome State Fault Refusal

/-- The start state of a run, all of whose parts are parameters (10_state.md R45, 70_reset_and_hazards.md R220): `InitGPR`, `EntryPoint`, `LE`,
`InitMem` and the platform. -/
def State.start (initGPR : Vector Word 32) (entryPoint : Word) (le : Bool) (initMem : Memory) (platform : Config.Platform) : State :=
  { x := initGPR, pc := entryPoint, le := le, mem := initMem, platform := platform }

/-- The machine right after reset: the start state with the values that Config.lean names (logs 1, 3, 4, 5, 6) and the spec's defaults of
`MisalignedOK`, `Readable` and `DecodeTable`. -/
def State.reset : State :=
  State.start (Vector.replicate 32 Config.resetGPR) Config.resetEntryPoint Config.resetLE [] (Config.resetPlatform decodeTable)

end Sys2Proof.Machine
end

