-- ==== Sys2Proof/Machine/Ops.lean ====
section
/-! DEFINITION. The named operations: registers, storage, the admission of an access, MemRead, fetch, completing an instruction, raising a
fault, and the two ways a single-register load ends. -/

namespace Sys2Proof.Machine

/-! Storage. -/

/-- What an address that is not listed reads as. DESIGN CHOICE, unsafe: `InitMem` is OPEN (log 5). -/
def Memory.unlisted : Byte := 0

/-- The byte at an address. -/
def Memory.read : Memory → Nat → Byte
  | [], _ => Memory.unlisted
  | (k, c) :: m, a => if a = k then c else Memory.read m a

/-- Storage with one byte changed, in canonical form: writing what an unlisted address reads as removes the entry. -/
def Memory.write : Memory → Nat → Byte → Memory
  | [], a, b => if b = Memory.unlisted then [] else [(a, b)]
  | (k, c) :: m, a, b =>
    if a < k then (if b = Memory.unlisted then (k, c) :: m else (a, b) :: (k, c) :: m)
    else if a = k then (if b = Memory.unlisted then m else (a, b) :: m)
    else (k, c) :: Memory.write m a b

/-- The canonical form from address `lo` on: addresses rise strictly, are below 2^64, and no entry is what an unlisted address reads as. -/
def Memory.wfFrom (lo : Nat) : Memory → Bool
  | [] => true
  | (k, c) :: m => decide (lo ≤ k) && decide (k < Config.addressSpace) && c != Memory.unlisted && Memory.wfFrom (k + 1) m

/-- The canonical form. -/
def Memory.wf (m : Memory) : Bool := Memory.wfFrom 0 m

/-- `MemByte(a)` (00_scope.md R16). -/
def memByte (m : Memory) (a : Word) : Byte := Memory.read m a.toNat

/-- The address of byte `i` of an access at `a`, modulo 2^64 (20_memory.md R67). -/
def byteAddr (a : Word) (i : Nat) : Word := a + BitVec.ofNat 64 i

/-- The `n` bytes at `a`, `a + 1`, .. in address order. -/
def bytesAt (m : Memory) (a : Word) (n : Nat) : List Byte :=
  (List.range n).map (fun i => memByte m (byteAddr a i))

/-- `MemReadBE(a, n)` (20_memory.md R51). -/
def memReadBE (m : Memory) (a : Word) (n : Nat) : BitVec (8 * n) := assemble false n (bytesAt m a n)

/-- `MemReadLE(a, n)` (20_memory.md R51). -/
def memReadLE (m : Memory) (a : Word) (n : Nat) : BitVec (8 * n) := assemble true n (bytesAt m a n)

/-- Storage with bytes put at consecutive addresses from `a` on. -/
def Memory.writeBytes (m : Memory) (a : Word) : List Byte → Memory
  | [] => m
  | b :: bs => Memory.writeBytes (Memory.write m a.toNat b) (a + 1) bs

/-- `MemWrite(a, n, v)` in the byte order of the mode (00_scope.md R16): no instruction uses it, only the load of a program from outside
(log 17). -/
def memWrite (s : State) (a : Word) (n : Nat) (v : BitVec (8 * n)) : State :=
  { s with mem := Memory.writeBytes s.mem a (layout s.le n v) }

/-! Admission of an access, and the reads. -/

/-- Whether a region holds an address. -/
def regionHolds (a : Word) (r : Config.Region) : Bool := decide (r.base ≤ a.toNat) && decide (a.toNat < r.base + r.size)

/-- `Readable(a)` (20_memory.md R66). -/
def isReadable (s : State) (a : Word) : Bool := s.platform.readable.any (regionHolds a)

/-- The first byte address of an access, in the order `a`, `a + 1`, .., that is not readable (20_memory.md R53). -/
def firstUnreadable (s : State) (a : Word) (n : Nat) : Option Word :=
  ((List.range n).map (byteAddr a)).find? (fun b => !isReadable s b)

/-- `check(a, n)`, the fault that an access meets, if any: alignment first, then the first byte that is not readable (20_memory.md R53). -/
def check (s : State) (a : Word) (n : Nat) : Option Fault :=
  if s.platform.misalignedOK = false ∧ a.toNat % n ≠ 0 then some (.alignment (.addr a))
  else (firstUnreadable s a n).map .storageFault

/-- `MemRead(a, n)`, the `MEM(EA, n)` of the source: admitted, then read in the byte order of the mode (20_memory.md R52). -/
def memRead (s : State) (a : Word) (n : Nat) : Except Fault (BitVec (8 * n)) :=
  match check s a n with
  | some f => .error f
  | none => .ok (if s.le then memReadLE s.mem a n else memReadBE s.mem a n)

/-- `n` words read at `a`, `a + 4`, .. in ascending order, each one admitted, all of them before anything is written
(46_load_multiple.md R180, R181). -/
def readWords (s : State) (a : Word) : Nat → Except Fault (List (BitVec 32))
  | 0 => .ok []
  | n + 1 =>
    match memRead s a 4 with
    | .error f => .error f
    | .ok v =>
      match readWords s (a + 4) n with
      | .error f => .error f
      | .ok vs => .ok (v :: vs)

/-- Instruction fetch: `MemRead(pc, 4)`, in the mode and under the check of a data access (20_memory.md R55; logs 14 and 20). -/
def fetch (s : State) : Except Fault InstrWord := memRead s s.pc 4

/-! Registers. -/

/-- The content of a register (00_scope.md R13). -/
def State.reg (s : State) (r : RegNum) : Word := s.x[r]

/-- `x[r] <- v` (00_scope.md R13). No register is hardwired (10_state.md R31). -/
def State.setReg (s : State) (r : RegNum) (v : Word) : State := { s with x := s.x.set r v }

/-- Values put into the registers `r`, `r + 1`, .. (46_load_multiple.md R180). There is no register above 31. -/
def State.setRegsFrom (s : State) (r : Nat) : List Word → State
  | [] => s
  | v :: vs => if h : r < 32 then (s.setReg ⟨r, h⟩ v).setRegsFrom (r + 1) vs else s

/-! How an instruction ends (00_scope.md R18). -/

/-- `pc <- pc + 4`, modulo 2^64 (10_state.md R35, R36). -/
def State.advance (s : State) : State := { s with pc := s.pc + 4 }

/-- The instruction completes: its registers are written in `s`, and `pc` advances (10_state.md R35). -/
def complete (s : State) : Out := .next s.advance

/-- Taking an exception: a fault ends the run. No register is written, `pc` does not advance, no handler is entered, and there is no
return from one (60_exceptions.md R195, R198). -/
def raise (f : Fault) : Out := .fault f

/-- A fault with the instruction word, where it records one, put to `w` (60_exceptions.md R190). -/
def faultAtWord (w : InstrWord) : Fault → Fault
  | .illegalInstruction _ => .illegalInstruction w
  | .invalidForm _ => .invalidForm w
  | .alignment (.word _) => .alignment (.word w)
  | .alignment (.addr a) => .alignment (.addr a)
  | .storageFault a => .storageFault a

/-- The outcome of an instruction that was fetched as the word `w`: the word a fault records is the one that was fetched, by whatever table
it was decoded (60_exceptions.md R190). A meaning is not given the word, and records the one of the default table; by that table the two are equal. -/
def recordWord (w : InstrWord) : Out → Out
  | .next t => .next t
  | .fault f => .fault (faultAtWord w f)
  | .refused r => .refused r

/-- What the fetch of a placed word needs (log 17): its four bytes readable, and `EndAddr` elsewhere than at `pc`. Where a fetch would go
through already, nothing changes. -/
def openFetch (s : State) : State :=
  { s with platform :=
    { s.platform with
      readable := if (firstUnreadable s s.pc 4).isSome
        then ((List.range 4).map fun i => ⟨(byteAddr s.pc i).toNat, 1⟩) ++ s.platform.readable
        else s.platform.readable
      endAddr := if s.pc = s.platform.endAddr then s.pc + 4 else s.platform.endAddr } }

/-- Go on with the value of a read, or raise the fault it met. -/
def withRead {α : Type} (r : Except Fault α) (k : α → Out) : Out :=
  match r with
  | .error f => raise f
  | .ok v => k v

/-- A single-register load without update (47_common_semantics.md R188): read `n` bytes at `ea`, widen, write RT. -/
def load (n : Nat) (widen : BitVec (8 * n) → Word) (rt : RegNum) (ea : Word) (s : State) : Out :=
  withRead (memRead s ea n) fun v => complete (s.setReg rt (widen v))

/-- A single-register load with update (47_common_semantics.md R188): the form is tested first; RT is written, then RA with the effective
address. `w` is the instruction word of
the default table (see `recordWord`). -/
def loadUpdate (w : InstrWord) (n : Nat) (widen : BitVec (8 * n) → Word) (rt ra : RegNum) (ea : Word) (s : State) : Out :=
  if ra = 0 ∨ ra = rt then raise (.invalidForm w)
  else withRead (memRead s ea n) fun v => complete ((s.setReg rt (widen v)).setReg ra ea)

end Sys2Proof.Machine
end

