-- ==== Sys2Proof/Machine/Operands.lean ====
section
/-! DEFINITION. The operand forms: displacements, the base, the four effective-address forms, and the widening of a loaded value. -/

namespace Sys2Proof.Machine

/-- The displacement of a D-Form instruction, `sext_64(D)` (30_encoding.md R90). -/
def dispD (d : BitVec 16) : Word := d.signExtend 64

/-- The displacement of a DS-Form instruction, `sext_64(DS || 0b00)` (30_encoding.md R91). -/
def dispDS (ds : BitVec 14) : Word := (ds ++ (0 : BitVec 2)).signExtend 64

/-- The displacement of a DQ-Form instruction, `sext_64(DQ || 0b0000)` (30_encoding.md R92). -/
def dispDQ (dq : BitVec 12) : Word := (dq ++ (0 : BitVec 4)).signExtend 64

/-- `RAz`, the source's `(RA|0)`: 0 when field RA is 0, and then register 0 is not read (00_scope.md R13, R17; 10_state.md R31). -/
def baseOrZero (s : State) (ra : RegNum) : Word := if ra = 0 then 0 else s.reg ra

/-- The displacement form, `RAz + disp` modulo 2^64 (30_encoding.md R93). -/
def eaDisp (s : State) (ra : RegNum) (disp : Word) : Word := baseOrZero s ra + disp

/-- The indexed form, `RAz + x[RB]` modulo 2^64; RB = 0 is register 0 (30_encoding.md R93, 47_common_semantics.md R189). -/
def eaIndexed (s : State) (ra rb : RegNum) : Word := baseOrZero s ra + s.reg rb

/-- The displacement form with update, `x[RA] + disp` modulo 2^64 (30_encoding.md R93). -/
def eaDispUpdate (s : State) (ra : RegNum) (disp : Word) : Word := s.reg ra + disp

/-- The indexed form with update, `x[RA] + x[RB]` modulo 2^64 (30_encoding.md R93). -/
def eaIndexedUpdate (s : State) (ra rb : RegNum) : Word := s.reg ra + s.reg rb

/-- Zero extension to 64 bits, for the "and Zero", byte-reverse and multiple loads (00_scope.md R14, 47_common_semantics.md R184). -/
def zext64 {n : Nat} (v : BitVec n) : Word := v.setWidth 64

/-- Sign extension to 64 bits, for the "Algebraic" loads (00_scope.md R14, 47_common_semantics.md R184). -/
def sext64 {n : Nat} (v : BitVec n) : Word := v.signExtend 64

/-- The odd register of the pair of `lq` whose even register is `rtp` (10_state.md R33, 30_encoding.md R94). -/
def oddOfPair (rtp : RegNum) : RegNum := rtp + 1

end Sys2Proof.Machine
end

