-- ==== Sys2Proof/Machine/LoadByte.lean ====
section
/-! DEFINITION. The meanings of the byte loads (40_load_byte.md). -/

namespace Sys2Proof.Machine

/-- `lbz RT,D(RA)`: the byte at RAz + sext(D), zero-extended into RT (R120). -/
def execLbz (rt ra : RegNum) (d : BitVec 16) (s : State) : Out :=
  load 1 zext64 rt (eaDisp s ra (dispD d)) s

/-- `lbzx RT,RA,RB`: the byte at RAz + x[RB], zero-extended into RT (R121). -/
def execLbzx (rt ra rb : RegNum) (s : State) : Out :=
  load 1 zext64 rt (eaIndexed s ra rb) s

/-- `lbzu RT,D(RA)`: the byte at x[RA] + sext(D), zero-extended into RT; the address into RA (R122). -/
def execLbzu (rt ra : RegNum) (d : BitVec 16) (s : State) : Out :=
  loadUpdate (encode (.lbzu rt ra d)) 1 zext64 rt ra (eaDispUpdate s ra (dispD d)) s

/-- `lbzux RT,RA,RB`: the byte at x[RA] + x[RB], zero-extended into RT; the address into RA (R123). -/
def execLbzux (rt ra rb : RegNum) (s : State) : Out :=
  loadUpdate (encode (.lbzux rt ra rb)) 1 zext64 rt ra (eaIndexedUpdate s ra rb) s

end Sys2Proof.Machine
end

