-- ==== Sys2Proof/Machine/LoadByteReverse.lean ====
section
/-! DEFINITION. The meanings of the loads with byte reversal (45_load_byte_reverse.md): the element is read in the byte order of the mode, and
its bytes are then placed in the opposite order (R170). -/

namespace Sys2Proof.Machine

/-- `lhbrx RT,RA,RB`: the halfword at RAz + x[RB], its bytes reversed, zero-extended into RT (R171). -/
def execLhbrx (rt ra rb : RegNum) (s : State) : Out :=
  load 2 (fun v => zext64 (reverseBytes 2 v)) rt (eaIndexed s ra rb) s

/-- `lwbrx RT,RA,RB`: the word at RAz + x[RB], its bytes reversed, zero-extended into RT (R172). -/
def execLwbrx (rt ra rb : RegNum) (s : State) : Out :=
  load 4 (fun v => zext64 (reverseBytes 4 v)) rt (eaIndexed s ra rb) s

/-- `ldbrx RT,RA,RB`: the doubleword at RAz + x[RB], its bytes reversed into RT (R173). -/
def execLdbrx (rt ra rb : RegNum) (s : State) : Out :=
  load 8 (fun v => reverseBytes 8 v) rt (eaIndexed s ra rb) s

end Sys2Proof.Machine
end

