-- ==== Sys2Proof/Machine/LoadDoubleword.lean ====
section
/-! DEFINITION. The meanings of the doubleword loads (43_load_doubleword.md). -/

namespace Sys2Proof.Machine

/-- `ld RT,DS(RA)`: the doubleword at RAz + sext(DS || 00) into RT (R150). -/
def execLd (rt ra : RegNum) (ds : BitVec 14) (s : State) : Out :=
  load 8 id rt (eaDisp s ra (dispDS ds)) s

/-- `ldx RT,RA,RB`: the doubleword at RAz + x[RB] into RT (R151). -/
def execLdx (rt ra rb : RegNum) (s : State) : Out :=
  load 8 id rt (eaIndexed s ra rb) s

/-- `ldu RT,DS(RA)`: the doubleword at x[RA] + sext(DS || 00) into RT; the address into RA (R152). -/
def execLdu (rt ra : RegNum) (ds : BitVec 14) (s : State) : Out :=
  loadUpdate (encode (.ldu rt ra ds)) 8 id rt ra (eaDispUpdate s ra (dispDS ds)) s

/-- `ldux RT,RA,RB`: the doubleword at x[RA] + x[RB] into RT; the address into RA (R153). -/
def execLdux (rt ra rb : RegNum) (s : State) : Out :=
  loadUpdate (encode (.ldux rt ra rb)) 8 id rt ra (eaIndexedUpdate s ra rb) s

end Sys2Proof.Machine
end

