-- ==== Sys2Proof/Machine/LoadHalfword.lean ====
section
/-! DEFINITION. The meanings of the halfword loads (41_load_halfword.md). -/

namespace Sys2Proof.Machine

/-- `lhz RT,D(RA)`: the halfword at RAz + sext(D), zero-extended into RT (R130). -/
def execLhz (rt ra : RegNum) (d : BitVec 16) (s : State) : Out :=
  load 2 zext64 rt (eaDisp s ra (dispD d)) s

/-- `lhzx RT,RA,RB`: the halfword at RAz + x[RB], zero-extended into RT (R131). -/
def execLhzx (rt ra rb : RegNum) (s : State) : Out :=
  load 2 zext64 rt (eaIndexed s ra rb) s

/-- `lhzu RT,D(RA)`: the halfword at x[RA] + sext(D), zero-extended into RT; the address into RA (R132). -/
def execLhzu (rt ra : RegNum) (d : BitVec 16) (s : State) : Out :=
  loadUpdate (encode (.lhzu rt ra d)) 2 zext64 rt ra (eaDispUpdate s ra (dispD d)) s

/-- `lhzux RT,RA,RB`: the halfword at x[RA] + x[RB], zero-extended into RT; the address into RA (R133). -/
def execLhzux (rt ra rb : RegNum) (s : State) : Out :=
  loadUpdate (encode (.lhzux rt ra rb)) 2 zext64 rt ra (eaIndexedUpdate s ra rb) s

/-- `lha RT,D(RA)`: the halfword at RAz + sext(D), sign-extended into RT (R134). -/
def execLha (rt ra : RegNum) (d : BitVec 16) (s : State) : Out :=
  load 2 sext64 rt (eaDisp s ra (dispD d)) s

/-- `lhax RT,RA,RB`: the halfword at RAz + x[RB], sign-extended into RT (R135). -/
def execLhax (rt ra rb : RegNum) (s : State) : Out :=
  load 2 sext64 rt (eaIndexed s ra rb) s

/-- `lhau RT,D(RA)`: the halfword at x[RA] + sext(D), sign-extended into RT; the address into RA (R136). -/
def execLhau (rt ra : RegNum) (d : BitVec 16) (s : State) : Out :=
  loadUpdate (encode (.lhau rt ra d)) 2 sext64 rt ra (eaDispUpdate s ra (dispD d)) s

/-- `lhaux RT,RA,RB`: the halfword at x[RA] + x[RB], sign-extended into RT; the address into RA (R137). -/
def execLhaux (rt ra rb : RegNum) (s : State) : Out :=
  loadUpdate (encode (.lhaux rt ra rb)) 2 sext64 rt ra (eaIndexedUpdate s ra rb) s

end Sys2Proof.Machine
end

