-- ==== Sys2Proof/Machine/LoadMultiple.lean ====
section
/-! DEFINITION. The meaning of Load Multiple Word (46_load_multiple.md). -/

namespace Sys2Proof.Machine

/-- `lmw RT,D(RA)` (R180 to R183): RA in RT .. 31 is an invalid form, tested first (log 12); in Little-Endian mode the alignment error
handler is invoked, whatever the address; else 32 - RT consecutive words from RAz + sext(D) on, all read before any register is written
(log 13), zero-extended into registers RT to 31. -/
def execLmw (rt ra : RegNum) (d : BitVec 16) (s : State) : Out :=
  if rt ≤ ra then raise (.invalidForm (encode (.lmw rt ra d)))
  else if s.le = true then raise (.alignment (.word (encode (.lmw rt ra d))))
  else withRead (readWords s (eaDisp s ra (dispD d)) (32 - rt.val)) fun vs =>
    complete (s.setRegsFrom rt.val (vs.map zext64))

end Sys2Proof.Machine
end

