-- ==== Sys2Proof/Machine/LoadQuadword.lean ====
section
/-! DEFINITION. The meaning of the quadword load (44_load_quadword.md). -/

namespace Sys2Proof.Machine

/-- `lq RTp,DQ(RA)` (R160): RTp = RA is illegal and tested first (30_encoding.md R102, 90_conflicts.md C3), RTp odd is invalid; the high half
of the quadword at RAz + sext(DQ || 0000) goes to the even register and the low half to the odd one, in both modes. -/
def execLq (rtp ra : RegNum) (dq : BitVec 12) (s : State) : Out :=
  if rtp = ra then raise (.illegalInstruction (encode (.lq rtp ra dq)))
  else if rtp.val % 2 = 1 then raise (.invalidForm (encode (.lq rtp ra dq)))
  else withRead (memRead s (eaDisp s ra (dispDQ dq)) 16) fun q =>
    complete ((s.setReg rtp (q.extractLsb' 64 64)).setReg (oddOfPair rtp) (q.extractLsb' 0 64))

end Sys2Proof.Machine
end

