-- ==== Sys2Proof/Machine/LoadWord.lean ====
section
/-! DEFINITION. The meanings of the word loads (42_load_word.md). -/

namespace Sys2Proof.Machine

/-- `lwz RT,D(RA)`: the word at RAz + sext(D), zero-extended into RT (R140). -/
def execLwz (rt ra : RegNum) (d : BitVec 16) (s : State) : Out :=
  load 4 zext64 rt (eaDisp s ra (dispD d)) s

/-- `lwzx RT,RA,RB`: the word at RAz + x[RB], zero-extended into RT (R141). -/
def execLwzx (rt ra rb : RegNum) (s : State) : Out :=
  load 4 zext64 rt (eaIndexed s ra rb) s

/-- `lwzu RT,D(RA)`: the word at x[RA] + sext(D), zero-extended into RT; the address into RA (R142). -/
def execLwzu (rt ra : RegNum) (d : BitVec 16) (s : State) : Out :=
  loadUpdate (encode (.lwzu rt ra d)) 4 zext64 rt ra (eaDispUpdate s ra (dispD d)) s

/-- `lwzux RT,RA,RB`: the word at x[RA] + x[RB], zero-extended into RT; the address into RA (R143). -/
def execLwzux (rt ra rb : RegNum) (s : State) : Out :=
  loadUpdate (encode (.lwzux rt ra rb)) 4 zext64 rt ra (eaIndexedUpdate s ra rb) s

/-- `lwa RT,DS(RA)`: the word at RAz + sext(DS || 00), sign-extended into RT (R144). -/
def execLwa (rt ra : RegNum) (ds : BitVec 14) (s : State) : Out :=
  load 4 sext64 rt (eaDisp s ra (dispDS ds)) s

/-- `lwax RT,RA,RB`: the word at RAz + x[RB], sign-extended into RT (R145). -/
def execLwax (rt ra rb : RegNum) (s : State) : Out :=
  load 4 sext64 rt (eaIndexed s ra rb) s

/-- `lwaux RT,RA,RB`: the word at x[RA] + x[RB], sign-extended into RT; the address into RA (R146). -/
def execLwaux (rt ra rb : RegNum) (s : State) : Out :=
  loadUpdate (encode (.lwaux rt ra rb)) 4 sext64 rt ra (eaIndexedUpdate s ra rb) s

end Sys2Proof.Machine
end

