-- ==== Sys2Proof/Machine/Step.lean ====
section
/-! DEFINITION. One step of the machine, and how a host places an instruction where the next step fetches it. -/

namespace Sys2Proof.Machine

/-- One step (70_reset_and_hazards.md R223): fetch at `pc`, decode by the configured table, execute, a fault recording the fetched word. At
`EndAddr` the run is over and nothing is fetched (R224, log 6). A word that matches no row raises `IllegalInstruction` (30_encoding.md R99). -/
def step (s : State) : Host.Outcome State Fault Refusal :=
  if s.pc = s.platform.endAddr then .refused .endOfRun
  else withRead (fetch s) fun w =>
    match decodeBy s.platform.decodeTable w with
    | .ok i => recordWord w (exec i s)
    | .error _ => raise (.illegalInstruction w)

/-- The state with a word stored where the next step fetches it, in the byte order of the mode. Only where the fetch needs it, the word's
four bytes become readable and a run that is over at `pc` is over at `pc + 4` instead (log 17). -/
def State.withFetchWord (s : State) (nbits w : Nat) : State :=
  openFetch (memWrite s s.pc 4 (BitVec.ofNat 32 (w % 2 ^ nbits)))

end Sys2Proof.Machine
end

