-- ==== Sys2Proof/Machine/Scheme.lean ====
section
/-! DEFINITION. The common scheme of the 26 single-register loads, written out from its table and pseudocode (47_common_semantics.md R187, R188).
It is a second reading of the spec: exec does not use it, and a statement says that exec agrees with it. -/

namespace Sys2Proof.Machine

/-- Column "widen" of R187. -/
inductive Widening where
  | zero | sign | none
deriving DecidableEq, Repr

/-- What is added to the base: an index register, or a displacement as a 16-bit value (R188, "disp"). -/
inductive Offset where
  | index (rb : RegNum)
  | disp (d : BitVec 16)
deriving DecidableEq, Repr

/-- The attributes of R187 and the decoded fields of one instruction. -/
structure LoadShape where
  size     : Nat
  widen    : Widening
  update   : Bool
  reversed : Bool
  rt       : RegNum
  ra       : RegNum
  offset   : Offset
deriving DecidableEq, Repr

/-- `DS || 0b00` as a 16-bit value. -/
def ds16 (ds : BitVec 14) : BitVec 16 := ds ++ (0 : BitVec 2)

/-- The table R187; `lq` and `lmw` have bodies of their own. -/
def shapeOf : Instr → Option LoadShape
  | .lbz rt ra d => some ⟨1, .zero, false, false, rt, ra, .disp d⟩
  | .lbzx rt ra rb => some ⟨1, .zero, false, false, rt, ra, .index rb⟩
  | .lbzu rt ra d => some ⟨1, .zero, true, false, rt, ra, .disp d⟩
  | .lbzux rt ra rb => some ⟨1, .zero, true, false, rt, ra, .index rb⟩
  | .lhz rt ra d => some ⟨2, .zero, false, false, rt, ra, .disp d⟩
  | .lhzx rt ra rb => some ⟨2, .zero, false, false, rt, ra, .index rb⟩
  | .lhzu rt ra d => some ⟨2, .zero, true, false, rt, ra, .disp d⟩
  | .lhzux rt ra rb => some ⟨2, .zero, true, false, rt, ra, .index rb⟩
  | .lha rt ra d => some ⟨2, .sign, false, false, rt, ra, .disp d⟩
  | .lhax rt ra rb => some ⟨2, .sign, false, false, rt, ra, .index rb⟩
  | .lhau rt ra d => some ⟨2, .sign, true, false, rt, ra, .disp d⟩
  | .lhaux rt ra rb => some ⟨2, .sign, true, false, rt, ra, .index rb⟩
  | .lwz rt ra d => some ⟨4, .zero, false, false, rt, ra, .disp d⟩
  | .lwzx rt ra rb => some ⟨4, .zero, false, false, rt, ra, .index rb⟩
  | .lwzu rt ra d => some ⟨4, .zero, true, false, rt, ra, .disp d⟩
  | .lwzux rt ra rb => some ⟨4, .zero, true, false, rt, ra, .index rb⟩
  | .lwa rt ra ds => some ⟨4, .sign, false, false, rt, ra, .disp (ds16 ds)⟩
  | .lwax rt ra rb => some ⟨4, .sign, false, false, rt, ra, .index rb⟩
  | .lwaux rt ra rb => some ⟨4, .sign, true, false, rt, ra, .index rb⟩
  | .ld rt ra ds => some ⟨8, .none, false, false, rt, ra, .disp (ds16 ds)⟩
  | .ldx rt ra rb => some ⟨8, .none, false, false, rt, ra, .index rb⟩
  | .ldu rt ra ds => some ⟨8, .none, true, false, rt, ra, .disp (ds16 ds)⟩
  | .ldux rt ra rb => some ⟨8, .none, true, false, rt, ra, .index rb⟩
  | .lhbrx rt ra rb => some ⟨2, .zero, false, true, rt, ra, .index rb⟩
  | .lwbrx rt ra rb => some ⟨4, .zero, false, true, rt, ra, .index rb⟩
  | .ldbrx rt ra rb => some ⟨8, .none, false, true, rt, ra, .index rb⟩
  | .lq _ _ _ => none
  | .lmw _ _ _ => none

/-- The scheme's base: `if update then x[RA] else (if RA = 0 then 0 else x[RA])`. -/
def schemeBase (a : LoadShape) (s : State) : Word :=
  if a.update then s.reg a.ra else if a.ra = 0 then 0 else s.reg a.ra

/-- The scheme's offset: `if form is indexed then x[RB] else sext_64(disp)`. -/
def schemeOffset (a : LoadShape) (s : State) : Word :=
  match a.offset with
  | .index rb => s.reg rb
  | .disp d => d.signExtend 64

/-- The value the scheme writes to RT: `r <- if widen = s then sext_64(v') else zext_64(v')`. -/
def schemeValue (a : LoadShape) (v : BitVec (8 * a.size)) : Word :=
  let v' := if a.reversed then reverseBytes a.size v else v
  match a.widen with
  | .sign => v'.signExtend 64
  | .zero => v'.setWidth 64
  | .none => v'.setWidth 64

/-- The pseudocode of R188 on the instruction word `w`. -/
def schemeExec (w : InstrWord) (a : LoadShape) (s : State) : Out :=
  if a.update = true ∧ (a.ra = 0 ∨ a.ra = a.rt) then raise (.invalidForm w)
  else
    let ea := schemeBase a s + schemeOffset a s
    match memRead s ea a.size with
    | .error f => raise f
    | .ok v =>
      let s1 := s.setReg a.rt (schemeValue a v)
      complete (if a.update then s1.setReg a.ra ea else s1)

end Sys2Proof.Machine
end

