-- ==== Sys2Proof/WellFormed.lean ====
section
/-! DEFINITION. Which instructions are valid forms (30_encoding.md R100, R102, R103). Every field of Instr has the width of its field in the
word, so the form is all there is to check. -/

namespace Sys2Proof

/-- An update form is valid when its base register is not register 0 and not the target (30_encoding.md R100). -/
def updateWellFormed (rt ra : RegNum) : Bool := ra != 0 && ra != rt

/-- `lq` is valid when RTp is even and is not RA (30_encoding.md R100, R102). -/
def quadWellFormed (rtp ra : RegNum) : Bool := rtp.val % 2 == 0 && rtp != ra

/-- `lmw` is valid when RA is below the range RT .. 31 of registers to be loaded (46_load_multiple.md R180, R182). -/
def multipleWellFormed (rt ra : RegNum) : Bool := ra.val < rt.val

/-- The valid forms (30_encoding.md R100). The 15 non-update single-register loads are valid with every operand (R103). -/
def Instr.wf : Instr → Bool
  | .lbz _ _ _ | .lbzx _ _ _ => true
  | .lbzu rt ra _ | .lbzux rt ra _ => updateWellFormed rt ra
  | .lhz _ _ _ | .lhzx _ _ _ | .lha _ _ _ | .lhax _ _ _ => true
  | .lhzu rt ra _ | .lhzux rt ra _ | .lhau rt ra _ | .lhaux rt ra _ => updateWellFormed rt ra
  | .lwz _ _ _ | .lwzx _ _ _ | .lwa _ _ _ | .lwax _ _ _ => true
  | .lwzu rt ra _ | .lwzux rt ra _ | .lwaux rt ra _ => updateWellFormed rt ra
  | .ld _ _ _ | .ldx _ _ _ => true
  | .ldu rt ra _ | .ldux rt ra _ => updateWellFormed rt ra
  | .lq rtp ra _ => quadWellFormed rtp ra
  | .lhbrx _ _ _ | .lwbrx _ _ _ | .ldbrx _ _ _ => true
  | .lmw rt ra _ => multipleWellFormed rt ra

end Sys2Proof
end

