-- ==== Sys2Proof/Safety.lean ====
section
/-! DEFINITION. The terms the statements use: which accesses are admitted and which fault comes first, the values storage holds in each byte
order, what completing means, which registers an instruction reads and writes, what a run is and when it is over. They are written from the
spec, apart from the definitions that exec uses. -/

namespace Sys2Proof.Safety

open Sys2Proof.Machine

/-! Admission of an access (20_memory.md R53, R66). -/

/-- `Readable(a)`: some region of the platform holds the address. -/
abbrev Readable (s : State) (a : Word) : Prop :=
  ∃ r ∈ s.platform.readable, r.base ≤ a.toNat ∧ a.toNat < r.base + r.size

/-- The alignment test of `check(a, n)` passes. -/
abbrev AlignmentOK (s : State) (a : Word) (n : Nat) : Prop :=
  s.platform.misalignedOK = true ∨ a.toNat % n = 0

/-- The access of `n` bytes at `a` meets no fault. -/
abbrev Admitted (s : State) (a : Word) (n : Nat) : Prop :=
  AlignmentOK s a n ∧ ∀ i < n, Readable s (a + BitVec.ofNat 64 i)

/-- The fault that `check(a, n)` raises is `f`: `Alignment(a)`, or `StorageFault` with the first address of `a`, `a + 1`, .. that is not
readable. -/
abbrev Meets (s : State) (a : Word) (n : Nat) (f : Fault) : Prop :=
  (s.platform.misalignedOK = false ∧ a.toNat % n ≠ 0 ∧ f = .alignment (.addr a)) ∨
  (AlignmentOK s a n ∧ ∃ k < n, (∀ j < k, Readable s (a + BitVec.ofNat 64 j)) ∧
    ¬ Readable s (a + BitVec.ofNat 64 k) ∧ f = .storageFault (a + BitVec.ofNat 64 k))

/-! Values in storage, written out byte by byte (20_memory.md R51, R52). `le` is the byte order. -/

/-- The halfword at `a`. -/
def halfword (le : Bool) (m : Memory) (a : Word) : BitVec 16 :=
  if le then memByte m (a + 1) ++ memByte m a else memByte m a ++ memByte m (a + 1)

/-- The word at `a`. -/
def word (le : Bool) (m : Memory) (a : Word) : BitVec 32 :=
  if le then memByte m (a + 3) ++ memByte m (a + 2) ++ memByte m (a + 1) ++ memByte m a
  else memByte m a ++ memByte m (a + 1) ++ memByte m (a + 2) ++ memByte m (a + 3)

/-- The doubleword at `a`. -/
def doubleword (le : Bool) (m : Memory) (a : Word) : BitVec 64 :=
  if le then word le m (a + 4) ++ word le m a else word le m a ++ word le m (a + 4)

/-! Effective addresses (30_encoding.md R90 to R93). -/

/-- `RAz`: 0 when field RA is 0. -/
def raz (s : State) (ra : RegNum) : Word := if ra = 0 then 0 else s.reg ra

/-- `sext_64(D)`. -/
def sextD (d : BitVec 16) : Word := d.signExtend 64

/-- `sext_64(DS || 0b00)`. -/
def sextDS (ds : BitVec 14) : Word := (ds ++ 0#2).signExtend 64

/-- `sext_64(DQ || 0b0000)`. -/
def sextDQ (dq : BitVec 12) : Word := (dq ++ 0#4).signExtend 64

/-! What an instruction does. -/

/-- The instruction answers a next state that holds the listed values in the listed registers, has `pc` four on, and is otherwise the state
before: every other register, LE, the platform, and every byte of storage. -/
def Completes (i : Instr) (s : State) (writes : List (RegNum × Word)) : Prop :=
  ∃ t, exec i s = .next t ∧
    (∀ p ∈ writes, t.reg p.1 = p.2) ∧
    (∀ r, (∀ p ∈ writes, p.1 ≠ r) → t.reg r = s.reg r) ∧
    t.pc = s.pc + 4 ∧ t.le = s.le ∧ t.platform = s.platform ∧
    ∀ a, memByte t.mem a = memByte s.mem a

/-- The instruction makes one access of `n` bytes at `ea`: where the access is admitted it completes with the listed writes, and where the
access meets a fault, the instruction faults with it. -/
def LoadsWith (i : Instr) (s : State) (ea : Word) (n : Nat) (writes : List (RegNum × Word)) : Prop :=
  (Admitted s ea n → Completes i s writes) ∧ ∀ f, Meets s ea n f → exec i s = .fault f

/-- An update form: with RA = 0 or RA = RT the fault `InvalidForm(w)`, else one access, `v` into RT and the address into RA. -/
def UpdatesWith (i : Instr) (s : State) (rt ra : RegNum) (ea : Word) (n : Nat) (v : Word) : Prop :=
  (ra = 0 ∨ ra = rt → exec i s = .fault (.invalidForm (encode i))) ∧
  (ra ≠ 0 → ra ≠ rt → LoadsWith i s ea n [(rt, v), (ra, ea)])

/-- The accesses to storage of a valid form, address and size, in the order they are made: one for each instruction but `lmw`, which makes one of
four bytes for each register it loads (20_memory.md R61, R64; 30_encoding.md R93). -/
def accesses (i : Instr) (s : State) : List (Word × Nat) :=
  match i with
  | .lbz _ ra d => [(raz s ra + sextD d, 1)]
  | .lhz _ ra d | .lha _ ra d => [(raz s ra + sextD d, 2)]
  | .lwz _ ra d => [(raz s ra + sextD d, 4)]
  | .lwa _ ra ds => [(raz s ra + sextDS ds, 4)]
  | .ld _ ra ds => [(raz s ra + sextDS ds, 8)]
  | .lq _ ra dq => [(raz s ra + sextDQ dq, 16)]
  | .lbzx _ ra rb => [(raz s ra + s.reg rb, 1)]
  | .lhzx _ ra rb | .lhax _ ra rb | .lhbrx _ ra rb => [(raz s ra + s.reg rb, 2)]
  | .lwzx _ ra rb | .lwax _ ra rb | .lwbrx _ ra rb => [(raz s ra + s.reg rb, 4)]
  | .ldx _ ra rb | .ldbrx _ ra rb => [(raz s ra + s.reg rb, 8)]
  | .lbzu _ ra d => [(s.reg ra + sextD d, 1)]
  | .lhzu _ ra d | .lhau _ ra d => [(s.reg ra + sextD d, 2)]
  | .lwzu _ ra d => [(s.reg ra + sextD d, 4)]
  | .ldu _ ra ds => [(s.reg ra + sextDS ds, 8)]
  | .lbzux _ ra rb => [(s.reg ra + s.reg rb, 1)]
  | .lhzux _ ra rb | .lhaux _ ra rb => [(s.reg ra + s.reg rb, 2)]
  | .lwzux _ ra rb | .lwaux _ ra rb => [(s.reg ra + s.reg rb, 4)]
  | .ldux _ ra rb => [(s.reg ra + s.reg rb, 8)]
  | .lmw rt ra d => (List.range (32 - rt.val)).map fun k => (raz s ra + sextD d + BitVec.ofNat 64 (4 * k), 4)

/-- The registers an instruction reads (10_state.md R32, column "reads"): field RA only where it is not 0 or the form is an update form. -/
def reads : Instr → List RegNum
  | .lbz _ ra _ | .lhz _ ra _ | .lha _ ra _ | .lwz _ ra _ | .lmw _ ra _ => if ra = 0 then [] else [ra]
  | .lwa _ ra _ | .ld _ ra _ => if ra = 0 then [] else [ra]
  | .lq _ ra _ => if ra = 0 then [] else [ra]
  | .lbzx _ ra rb | .lhzx _ ra rb | .lhax _ ra rb | .lwzx _ ra rb | .lwax _ ra rb | .ldx _ ra rb
  | .lhbrx _ ra rb | .lwbrx _ ra rb | .ldbrx _ ra rb => if ra = 0 then [rb] else [ra, rb]
  | .lbzu _ ra _ | .lhzu _ ra _ | .lhau _ ra _ | .lwzu _ ra _ => [ra]
  | .ldu _ ra _ => [ra]
  | .lbzux _ ra rb | .lhzux _ ra rb | .lhaux _ ra rb | .lwzux _ ra rb | .lwaux _ ra rb | .ldux _ ra rb => [ra, rb]

/-- The registers a completing instruction writes (10_state.md R32, column "writes"). -/
def writes : Instr → List RegNum
  | .lbz rt _ _ | .lhz rt _ _ | .lha rt _ _ | .lwz rt _ _ => [rt]
  | .lwa rt _ _ | .ld rt _ _ => [rt]
  | .lbzx rt _ _ | .lhzx rt _ _ | .lhax rt _ _ | .lwzx rt _ _ | .lwax rt _ _ | .ldx rt _ _
  | .lhbrx rt _ _ | .lwbrx rt _ _ | .ldbrx rt _ _ => [rt]
  | .lbzu rt ra _ | .lhzu rt ra _ | .lhau rt ra _ | .lwzu rt ra _ => [rt, ra]
  | .ldu rt ra _ => [rt, ra]
  | .lbzux rt ra _ | .lhzux rt ra _ | .lhaux rt ra _ | .lwzux rt ra _ | .lwaux rt ra _ | .ldux rt ra _ => [rt, ra]
  | .lq rtp _ _ => [rtp, rtp + 1]
  | .lmw rt _ _ => (List.finRange 32).filter (fun r => rt ≤ r)

/-- The same state in the other byte-order mode. -/
def otherMode (s : State) : State := { s with le := !s.le }

/-- An outcome with its next state, if any, in the other byte-order mode. -/
def otherModeOut : Out → Out
  | .next t => .next (otherMode t)
  | .fault f => .fault f
  | .refused r => .refused r

/-! Runs (70_reset_and_hazards.md R221, R224). -/

/-- `pc` and `EndAddr` are multiples of 4 (10_state.md R36, 00_scope.md R8). -/
def PcAligned (s : State) : Prop := s.pc.toNat % 4 = 0 ∧ s.platform.endAddr.toNat % 4 = 0

/-- The invariant of every step: `pc` and `EndAddr` are multiples of 4, and storage has its canonical form. -/
def Inv (s : State) : Prop := PcAligned s ∧ Memory.wf s.mem = true

/-- How a run stands after a number of steps. -/
inductive RunEnd where
  /-- `pc` equals `EndAddr`: the run is over, successfully. -/
  | ended (s : State)
  /-- A step raised a fault; the state is the one before the faulting instruction (60_exceptions.md R195). -/
  | faulted (f : Fault) (s : State)
  /-- A step was refused. -/
  | refused (r : Refusal) (s : State)
  /-- The steps are used up and the run is not over. -/
  | running (s : State)
deriving DecidableEq, Repr

/-- A run of at most `k` steps, over at the first state whose `pc` equals `EndAddr` or at the first fault (70_reset_and_hazards.md R224). -/
def runTo : Nat → State → RunEnd
  | 0, s => if s.pc = s.platform.endAddr then .ended s else .running s
  | k + 1, s =>
    if s.pc = s.platform.endAddr then .ended s
    else match step s with
      | .next t => runTo k t
      | .fault f => .faulted f s
      | .refused r => .refused r s

/-- `((EndAddr - pc) mod 2^64) / 4`: the number of steps of a run that meets no fault (70_reset_and_hazards.md R224). -/
def stepsToEnd (s : State) : Nat := (s.platform.endAddr - s.pc).toNat / 4

/-- A safe run of `k` steps: it does not stop with a fault or a refusal. -/
def SafeRun (k : Nat) (s : State) : Prop :=
  (∃ t, runTo k s = .ended t) ∨ ∃ t, runTo k s = .running t

end Sys2Proof.Safety
end

