-- ==== Sys2Proof/Certificates/Slice0/Obligations.lean ====
section
/-! DEFINITION. The statements for the provers. The terms they use are defined in Safety.lean, apart from the definitions that exec uses. -/

open Sys2Proof Sys2Proof.Machine Sys2Proof.Safety

/-! Encoding. -/

/-- Decoding the word of an instruction gives the instruction, with every operand at every value its field admits, the invalid forms
among them (30_encoding.md R81 to R85, R95, R96). -/
def Obligations.DecodeOfEncodeIsTheInstruction : Prop :=
  ∀ i : Instr, decode (encode i) = .ok i

/-- A word that decodes is the word of the instruction it decodes to: decoding drops no bit. -/
def Obligations.EncodeOfDecodeIsTheWord : Prop :=
  ∀ (w : InstrWord) (i : Instr), decode w = .ok i → encode i = w

/-- Two rows of the table that match one word are the same row (30_encoding.md R96, R98). -/
def Obligations.AtMostOneRowMatchesAWord : Prop :=
  ∀ w : InstrWord, ∀ r ∈ decodeTable, ∀ q ∈ decodeTable,
    w &&& r.mask = r.pattern → w &&& q.mask = q.pattern → r = q

/-- The fields of the four formats stand at the bits of R81 to R84, and the reserved bits are 0 (30_encoding.md R81 to R85). -/
def Obligations.FormatsPlaceTheirFields : Prop :=
  (∀ (w : InstrWord) po rt ra d, w = dForm po rt ra d →
    w.extractLsb' 26 6 = po ∧ (w.extractLsb' 21 5).toNat = rt.val ∧ (w.extractLsb' 16 5).toNat = ra.val ∧ w.extractLsb' 0 16 = d) ∧
  (∀ (w : InstrWord) po rt ra ds xo, w = dsForm po rt ra ds xo →
    w.extractLsb' 26 6 = po ∧ (w.extractLsb' 21 5).toNat = rt.val ∧ (w.extractLsb' 16 5).toNat = ra.val ∧
    w.extractLsb' 2 14 = ds ∧ w.extractLsb' 0 2 = xo) ∧
  (∀ (w : InstrWord) po rtp ra dq, w = dqForm po rtp ra dq →
    w.extractLsb' 26 6 = po ∧ (w.extractLsb' 21 5).toNat = rtp.val ∧ (w.extractLsb' 16 5).toNat = ra.val ∧
    w.extractLsb' 4 12 = dq ∧ w.extractLsb' 0 4 = 0) ∧
  (∀ (w : InstrWord) po rt ra rb xo, w = xForm po rt ra rb xo →
    w.extractLsb' 26 6 = po ∧ (w.extractLsb' 21 5).toNat = rt.val ∧ (w.extractLsb' 16 5).toNat = ra.val ∧
    (w.extractLsb' 11 5).toNat = rb.val ∧ w.extractLsb' 1 10 = xo ∧ w.extractLsb' 0 1 = 0)

/-- Words of 95_test_vectors.md section 4 decode to the instructions that stand there, and words that stand there as matching no row are
rejected. -/
def Obligations.DecodeVectorsOfTheSpec : Prop :=
  decode 0x8864FFFF = .ok (.lbz 3 4 0xFFFF) ∧ decode 0xE8640009 = .ok (.ldu 3 4 2) ∧
  decode 0xE864FFFE = .ok (.lwa 3 4 0x3FFF) ∧ decode 0xE0C4FFF0 = .ok (.lq 6 4 0xFFF) ∧
  decode 0x7C6428AE = .ok (.lbzx 3 4 5) ∧ decode 0x7C642E2C = .ok (.lhbrx 3 4 5) ∧
  decode 0x7FFFFAEA = .ok (.lwaux 31 31 31) ∧ decode 0xBBE01010 = .ok (.lmw 31 0 0x1010) ∧
  decode 0xE8640003 = .error (.noRow 0xE8640003) ∧ decode 0xE0C40008 = .error (.noRow 0xE0C40008) ∧
  decode 0x7C6428AF = .error (.noRow 0x7C6428AF) ∧ decode 0x60000000 = .error (.noRow 0x60000000)

/-- Decoding searches the configured table: for every `DecodeTable`, a word that matches no row is rejected, and a word that matches just one
row is the instruction of that row, with the row's mnemonic and its operands at the row's places (00_scope.md R8, 30_encoding.md R96). -/
def Obligations.DecodingSearchesTheConfiguredTable : Prop :=
  ∀ (table : List Row) (w : InstrWord),
    ((∀ r ∈ table, w &&& r.mask ≠ r.pattern) → decodeBy table w = .error (.noRow w)) ∧
    ∀ r ∈ table, w &&& r.mask = r.pattern → (∀ q ∈ table, w &&& q.mask = q.pattern → q = r) →
      decodeBy table w = .ok (instrOfRow r w) ∧ (instrOfRow r w).mnemonic = r.name

/-- A fetched word that matches no row of `DecodeTable` raises `IllegalInstruction(w)`. By the default table: in particular a word with another
primary opcode, with PO = 31 and another XO, or with PO = 58 and XO = 3 (30_encoding.md R99). -/
def Obligations.WordsOutsideTheTableAreIllegal : Prop :=
  ∀ (s : State) (w : InstrWord), s.pc ≠ s.platform.endAddr → fetch s = .ok w →
    ((∀ r ∈ s.platform.decodeTable, w &&& r.mask ≠ r.pattern) → step s = .fault (.illegalInstruction w)) ∧
    (s.platform.decodeTable = decodeTable →
      (w.extractLsb' 26 6 ∉ ([31, 32, 33, 34, 35, 40, 41, 42, 43, 46, 56, 58] : List (BitVec 6)) →
        step s = .fault (.illegalInstruction w)) ∧
      (w.extractLsb' 26 6 = 31 →
        w.extractLsb' 1 10 ∉ ([21, 23, 53, 55, 87, 119, 279, 311, 341, 343, 373, 375, 532, 534, 790] : List (BitVec 10)) →
        step s = .fault (.illegalInstruction w)) ∧
      (w.extractLsb' 26 6 = 58 → w.extractLsb' 0 2 = 3 → step s = .fault (.illegalInstruction w)))

/-- A word with bit 0 of an X-Form load or one of bits 3:0 of `lq` set matches no row of the default table, and by it raises
`IllegalInstruction` (30_encoding.md R101). -/
def Obligations.ReservedBitsMustBeZero : Prop :=
  ∀ w : InstrWord,
    (w.extractLsb' 26 6 = 31 ∧ w.extractLsb' 0 1 ≠ 0) ∨ (w.extractLsb' 26 6 = 56 ∧ w.extractLsb' 0 4 ≠ 0) →
    (∀ r ∈ decodeTable, w &&& r.mask ≠ r.pattern) ∧
    ∀ s : State, s.platform.decodeTable = decodeTable → s.pc ≠ s.platform.endAddr → fetch s = .ok w →
      step s = .fault (.illegalInstruction w)

/-- The displacement of each format: the field, times 1, 4 or 16, as a signed number, in the ranges of R90 to R92; and the displacement of a
word is its low 16 bits under the mask of its format, sign-extended. -/
def Obligations.DisplacementsAreSignExtendedFields : Prop :=
  (∀ d : BitVec 16, (dispD d).toInt = d.toInt ∧ -32768 ≤ (dispD d).toInt ∧ (dispD d).toInt ≤ 32767) ∧
  (∀ ds : BitVec 14, (dispDS ds).toInt = 4 * ds.toInt ∧ -32768 ≤ (dispDS ds).toInt ∧ (dispDS ds).toInt ≤ 32764) ∧
  (∀ dq : BitVec 12, (dispDQ dq).toInt = 16 * dq.toInt ∧ -32768 ≤ (dispDQ dq).toInt ∧ (dispDQ dq).toInt ≤ 32752) ∧
  ∀ w : InstrWord, dispD (fieldD dPlaces w) = (w.extractLsb' 0 16).signExtend 64 ∧
    dispDS (fieldDS dsPlaces w) = (w.extractLsb' 0 16 &&& 0xFFFC#16).signExtend 64 ∧
    dispDQ (fieldDQ dqPlaces w) = (w.extractLsb' 0 16 &&& 0xFFF0#16).signExtend 64

/-! Storage. -/

/-- The two fixed-order reads are sums of bytes, each byte at its address modulo 2^64; for one byte they are equal; and the Little-Endian
read is the Big-Endian read with its bytes reversed (20_memory.md R51). -/
def Obligations.FixedOrderReadsAreByteSums : Prop :=
  ∀ (m : Memory) (a : Word) (n : Nat),
    (memReadBE m a n).toNat = ∑ i ∈ Finset.range n, (memByte m (a + BitVec.ofNat 64 i)).toNat * 256 ^ (n - 1 - i) ∧
    (memReadLE m a n).toNat = ∑ i ∈ Finset.range n, (memByte m (a + BitVec.ofNat 64 i)).toNat * 256 ^ i ∧
    memReadLE m a n = reverseBytes n (memReadBE m a n) ∧
    memReadLE m a 1 = memReadBE m a 1

/-- `MemRead` raises the first fault of `check`, and otherwise answers the read in the byte order of the mode (20_memory.md R52, R53). -/
def Obligations.MemReadIsCheckedAndFollowsTheMode : Prop :=
  ∀ (s : State) (a : Word) (n : Nat),
    (Admitted s a n → memRead s a n = .ok (if s.le = true then memReadLE s.mem a n else memReadBE s.mem a n)) ∧
    (∀ f, Meets s a n f → memRead s a n = .error f) ∧
    (s.platform.misalignedOK = true → (∀ b, Readable s b) → ∃ v, memRead s a n = .ok v)

/-- Reads of different widths at overlapping addresses agree, in each byte order (20_memory.md R56). -/
def Obligations.OverlappingReadsAgree : Prop :=
  ∀ (m : Memory) (a : Word),
    (memReadBE m a 8).extractLsb' 56 8 = memReadBE m a 1 ∧
    (memReadBE m a 8).extractLsb' 0 32 = memReadBE m (a + 4) 4 ∧
    (memReadLE m a 8).extractLsb' 0 8 = memReadLE m a 1 ∧
    (memReadLE m a 8).extractLsb' 32 32 = memReadLE m (a + 4) 4

/-- The instruction is the 32-bit word at `pc`, read in the mode of data accesses and under the same check: its most significant byte is the
byte at `pc` in Big-Endian mode, its least significant byte in Little-Endian mode (20_memory.md R55). That a `pc` which is no multiple of 4 faults
where misaligned accesses do is the model's reading, DEDUCED from "the same check" (log 14). -/
def Obligations.FetchReadsTheWordAtPc : Prop :=
  ∀ s : State,
    (Admitted s s.pc 4 → fetch s = .ok (word s.le s.mem s.pc)) ∧ ∀ f, Meets s s.pc 4 f → fetch s = .error f

/-- A word that is placed for the next step is the word that the next step fetches. Of the rest, only storage at the four bytes from `pc` on, the
readability of those four bytes, and an `EndAddr` that stood at `pc` are changed: every register, `pc`, LE, `MisalignedOK`,
`DecodeTable`, every other byte, the readability of every other byte, and an `EndAddr` elsewhere are as before. That a program comes into storage from outside is the model's reading (log 17). -/
def Obligations.PlacedWordIsFetched : Prop :=
  ∀ (s : State) (w : InstrWord) (t : State), Memory.wf s.mem = true → AlignmentOK s s.pc 4 → t = s.withFetchWord 32 w.toNat →
    fetch t = .ok w ∧ t.x = s.x ∧ t.pc = s.pc ∧ t.le = s.le ∧ t.platform.misalignedOK = s.platform.misalignedOK ∧
    t.platform.decodeTable = s.platform.decodeTable ∧
    (s.platform.endAddr ≠ s.pc → t.platform.endAddr = s.platform.endAddr) ∧
    (s.platform.endAddr = s.pc → t.platform.endAddr = s.pc + 4) ∧ t.pc ≠ t.platform.endAddr ∧
    (∀ b, (∀ i < 4, b ≠ s.pc + BitVec.ofNat 64 i) → memByte t.mem b = memByte s.mem b) ∧
    ∀ b, Readable t b ↔ Readable s b ∨ ∃ i < 4, b = s.pc + BitVec.ofNat 64 i

/-! The instructions. Each statement says how the word decodes, what the instruction does where its access is admitted (every register, pc,
LE, the platform and every byte of storage), and the fault where it is not. -/

/-- `lbz` and `lbzx` (40_load_byte.md R120, R121). -/
def Obligations.LoadByteAndZero : Prop :=
  ∀ (s : State) (rt ra : RegNum),
    (∀ d, decode (dForm 34 rt ra d) = .ok (.lbz rt ra d) ∧
      ∀ ea, ea = raz s ra + sextD d → LoadsWith (.lbz rt ra d) s ea 1 [(rt, (memByte s.mem ea).setWidth 64)]) ∧
    (∀ rb, decode (xForm 31 rt ra rb 87) = .ok (.lbzx rt ra rb) ∧
      ∀ ea, ea = raz s ra + s.reg rb → LoadsWith (.lbzx rt ra rb) s ea 1 [(rt, (memByte s.mem ea).setWidth 64)])

/-- `lbzu` and `lbzux` (40_load_byte.md R122, R123). -/
def Obligations.LoadByteAndZeroWithUpdate : Prop :=
  ∀ (s : State) (rt ra : RegNum),
    (∀ d, decode (dForm 35 rt ra d) = .ok (.lbzu rt ra d) ∧
      ∀ ea, ea = s.reg ra + sextD d → UpdatesWith (.lbzu rt ra d) s rt ra ea 1 ((memByte s.mem ea).setWidth 64)) ∧
    (∀ rb, decode (xForm 31 rt ra rb 119) = .ok (.lbzux rt ra rb) ∧
      ∀ ea, ea = s.reg ra + s.reg rb → UpdatesWith (.lbzux rt ra rb) s rt ra ea 1 ((memByte s.mem ea).setWidth 64))

/-- `lhz` and `lhzx` (41_load_halfword.md R130, R131). -/
def Obligations.LoadHalfwordAndZero : Prop :=
  ∀ (s : State) (rt ra : RegNum),
    (∀ d, decode (dForm 40 rt ra d) = .ok (.lhz rt ra d) ∧
      ∀ ea, ea = raz s ra + sextD d → LoadsWith (.lhz rt ra d) s ea 2 [(rt, (halfword s.le s.mem ea).setWidth 64)]) ∧
    (∀ rb, decode (xForm 31 rt ra rb 279) = .ok (.lhzx rt ra rb) ∧
      ∀ ea, ea = raz s ra + s.reg rb → LoadsWith (.lhzx rt ra rb) s ea 2 [(rt, (halfword s.le s.mem ea).setWidth 64)])

/-- `lhzu` and `lhzux` (41_load_halfword.md R132, R133). -/
def Obligations.LoadHalfwordAndZeroWithUpdate : Prop :=
  ∀ (s : State) (rt ra : RegNum),
    (∀ d, decode (dForm 41 rt ra d) = .ok (.lhzu rt ra d) ∧
      ∀ ea, ea = s.reg ra + sextD d → UpdatesWith (.lhzu rt ra d) s rt ra ea 2 ((halfword s.le s.mem ea).setWidth 64)) ∧
    (∀ rb, decode (xForm 31 rt ra rb 311) = .ok (.lhzux rt ra rb) ∧
      ∀ ea, ea = s.reg ra + s.reg rb → UpdatesWith (.lhzux rt ra rb) s rt ra ea 2 ((halfword s.le s.mem ea).setWidth 64))

/-- `lha` and `lhax` (41_load_halfword.md R134, R135). -/
def Obligations.LoadHalfwordAlgebraic : Prop :=
  ∀ (s : State) (rt ra : RegNum),
    (∀ d, decode (dForm 42 rt ra d) = .ok (.lha rt ra d) ∧
      ∀ ea, ea = raz s ra + sextD d → LoadsWith (.lha rt ra d) s ea 2 [(rt, (halfword s.le s.mem ea).signExtend 64)]) ∧
    (∀ rb, decode (xForm 31 rt ra rb 343) = .ok (.lhax rt ra rb) ∧
      ∀ ea, ea = raz s ra + s.reg rb → LoadsWith (.lhax rt ra rb) s ea 2 [(rt, (halfword s.le s.mem ea).signExtend 64)])

/-- `lhau` and `lhaux` (41_load_halfword.md R136, R137). -/
def Obligations.LoadHalfwordAlgebraicWithUpdate : Prop :=
  ∀ (s : State) (rt ra : RegNum),
    (∀ d, decode (dForm 43 rt ra d) = .ok (.lhau rt ra d) ∧
      ∀ ea, ea = s.reg ra + sextD d → UpdatesWith (.lhau rt ra d) s rt ra ea 2 ((halfword s.le s.mem ea).signExtend 64)) ∧
    (∀ rb, decode (xForm 31 rt ra rb 375) = .ok (.lhaux rt ra rb) ∧
      ∀ ea, ea = s.reg ra + s.reg rb → UpdatesWith (.lhaux rt ra rb) s rt ra ea 2 ((halfword s.le s.mem ea).signExtend 64))

/-- `lwz` and `lwzx` (42_load_word.md R140, R141). -/
def Obligations.LoadWordAndZero : Prop :=
  ∀ (s : State) (rt ra : RegNum),
    (∀ d, decode (dForm 32 rt ra d) = .ok (.lwz rt ra d) ∧
      ∀ ea, ea = raz s ra + sextD d → LoadsWith (.lwz rt ra d) s ea 4 [(rt, (word s.le s.mem ea).setWidth 64)]) ∧
    (∀ rb, decode (xForm 31 rt ra rb 23) = .ok (.lwzx rt ra rb) ∧
      ∀ ea, ea = raz s ra + s.reg rb → LoadsWith (.lwzx rt ra rb) s ea 4 [(rt, (word s.le s.mem ea).setWidth 64)])

/-- `lwzu` and `lwzux` (42_load_word.md R142, R143). -/
def Obligations.LoadWordAndZeroWithUpdate : Prop :=
  ∀ (s : State) (rt ra : RegNum),
    (∀ d, decode (dForm 33 rt ra d) = .ok (.lwzu rt ra d) ∧
      ∀ ea, ea = s.reg ra + sextD d → UpdatesWith (.lwzu rt ra d) s rt ra ea 4 ((word s.le s.mem ea).setWidth 64)) ∧
    (∀ rb, decode (xForm 31 rt ra rb 55) = .ok (.lwzux rt ra rb) ∧
      ∀ ea, ea = s.reg ra + s.reg rb → UpdatesWith (.lwzux rt ra rb) s rt ra ea 4 ((word s.le s.mem ea).setWidth 64))

/-- `lwa` and `lwax` (42_load_word.md R144, R145). -/
def Obligations.LoadWordAlgebraic : Prop :=
  ∀ (s : State) (rt ra : RegNum),
    (∀ ds, decode (dsForm 58 rt ra ds 2) = .ok (.lwa rt ra ds) ∧
      ∀ ea, ea = raz s ra + sextDS ds → LoadsWith (.lwa rt ra ds) s ea 4 [(rt, (word s.le s.mem ea).signExtend 64)]) ∧
    (∀ rb, decode (xForm 31 rt ra rb 341) = .ok (.lwax rt ra rb) ∧
      ∀ ea, ea = raz s ra + s.reg rb → LoadsWith (.lwax rt ra rb) s ea 4 [(rt, (word s.le s.mem ea).signExtend 64)])

/-- `lwaux` (42_load_word.md R146). -/
def Obligations.LoadWordAlgebraicWithUpdateIndexed : Prop :=
  ∀ (s : State) (rt ra rb : RegNum), decode (xForm 31 rt ra rb 373) = .ok (.lwaux rt ra rb) ∧
    ∀ ea, ea = s.reg ra + s.reg rb → UpdatesWith (.lwaux rt ra rb) s rt ra ea 4 ((word s.le s.mem ea).signExtend 64)

/-- `ld` and `ldx` (43_load_doubleword.md R150, R151). -/
def Obligations.LoadDoubleword : Prop :=
  ∀ (s : State) (rt ra : RegNum),
    (∀ ds, decode (dsForm 58 rt ra ds 0) = .ok (.ld rt ra ds) ∧
      ∀ ea, ea = raz s ra + sextDS ds → LoadsWith (.ld rt ra ds) s ea 8 [(rt, doubleword s.le s.mem ea)]) ∧
    (∀ rb, decode (xForm 31 rt ra rb 21) = .ok (.ldx rt ra rb) ∧
      ∀ ea, ea = raz s ra + s.reg rb → LoadsWith (.ldx rt ra rb) s ea 8 [(rt, doubleword s.le s.mem ea)])

/-- `ldu` and `ldux` (43_load_doubleword.md R152, R153). -/
def Obligations.LoadDoublewordWithUpdate : Prop :=
  ∀ (s : State) (rt ra : RegNum),
    (∀ ds, decode (dsForm 58 rt ra ds 1) = .ok (.ldu rt ra ds) ∧
      ∀ ea, ea = s.reg ra + sextDS ds → UpdatesWith (.ldu rt ra ds) s rt ra ea 8 (doubleword s.le s.mem ea)) ∧
    (∀ rb, decode (xForm 31 rt ra rb 53) = .ok (.ldux rt ra rb) ∧
      ∀ ea, ea = s.reg ra + s.reg rb → UpdatesWith (.ldux rt ra rb) s rt ra ea 8 (doubleword s.le s.mem ea))

/-- `lq` (44_load_quadword.md R160, R162): illegal with RTp = RA, else invalid with RTp odd, else in Big-Endian mode the doubleword at EA to the
even register and the one at EA + 8 to the odd register, in Little-Endian mode the byte-reversed doubleword at EA + 8 to the even register and
the one at EA to the odd register. RA = RTp + 1 is not excluded (R161). -/
def Obligations.LoadQuadword : Prop :=
  ∀ (s : State) (rtp ra : RegNum) (dq : BitVec 12),
    decode (dqForm 56 rtp ra dq) = .ok (.lq rtp ra dq) ∧
    (rtp = ra → exec (.lq rtp ra dq) s = .fault (.illegalInstruction (encode (.lq rtp ra dq)))) ∧
    (rtp ≠ ra → rtp.val % 2 = 1 → exec (.lq rtp ra dq) s = .fault (.invalidForm (encode (.lq rtp ra dq)))) ∧
    (rtp ≠ ra → rtp.val % 2 = 0 → ∀ ea, ea = raz s ra + sextDQ dq →
      (s.le = false → LoadsWith (.lq rtp ra dq) s ea 16
        [(rtp, doubleword false s.mem ea), (rtp + 1, doubleword false s.mem (ea + 8))]) ∧
      (s.le = true → LoadsWith (.lq rtp ra dq) s ea 16
        [(rtp, doubleword true s.mem (ea + 8)), (rtp + 1, doubleword true s.mem ea)]))

/-- `lhbrx`, `lwbrx` and `ldbrx` (45_load_byte_reverse.md R171 to R173): the bytes of the element as the mode reads it, in the opposite order. -/
def Obligations.LoadByteReverseIndexed : Prop :=
  ∀ (s : State) (rt ra rb : RegNum) (ea : Word), ea = raz s ra + s.reg rb →
    (decode (xForm 31 rt ra rb 790) = .ok (.lhbrx rt ra rb) ∧
      ∀ v, v = halfword s.le s.mem ea →
        LoadsWith (.lhbrx rt ra rb) s ea 2 [(rt, (v.extractLsb' 0 8 ++ v.extractLsb' 8 8).setWidth 64)]) ∧
    (decode (xForm 31 rt ra rb 534) = .ok (.lwbrx rt ra rb) ∧
      ∀ v, v = word s.le s.mem ea →
        LoadsWith (.lwbrx rt ra rb) s ea 4
          [(rt, (v.extractLsb' 0 8 ++ v.extractLsb' 8 8 ++ v.extractLsb' 16 8 ++ v.extractLsb' 24 8).setWidth 64)]) ∧
    (decode (xForm 31 rt ra rb 532) = .ok (.ldbrx rt ra rb) ∧
      ∀ v, v = doubleword s.le s.mem ea →
        LoadsWith (.ldbrx rt ra rb) s ea 8
          [(rt, v.extractLsb' 0 8 ++ v.extractLsb' 8 8 ++ v.extractLsb' 16 8 ++ v.extractLsb' 24 8 ++
            v.extractLsb' 32 8 ++ v.extractLsb' 40 8 ++ v.extractLsb' 48 8 ++ v.extractLsb' 56 8)])

/-- `lmw` (46_load_multiple.md R180, R181): invalid with RA >= RT, tested first; else `Alignment(w)` in Little-Endian mode; else, where every
word is admitted, register r from RT on receives the word at EA + 4(r - RT), zero-extended, and nothing else changes; else the fault of the first word
that meets one. -/
def Obligations.LoadMultipleWord : Prop :=
  ∀ (s : State) (rt ra : RegNum) (d : BitVec 16),
    decode (dForm 46 rt ra d) = .ok (.lmw rt ra d) ∧
    (rt ≤ ra → exec (.lmw rt ra d) s = .fault (.invalidForm (encode (.lmw rt ra d)))) ∧
    (ra < rt → s.le = true → exec (.lmw rt ra d) s = .fault (.alignment (.word (encode (.lmw rt ra d))))) ∧
    (ra < rt → s.le = false → ∀ ea, ea = raz s ra + sextD d →
      ((∀ k < 32 - rt.val, Admitted s (ea + BitVec.ofNat 64 (4 * k)) 4) →
        ∃ t, exec (.lmw rt ra d) s = .next t ∧
          (∀ r, rt ≤ r → t.reg r = (word false s.mem (ea + BitVec.ofNat 64 (4 * (r.val - rt.val)))).setWidth 64) ∧
          (∀ r, r < rt → t.reg r = s.reg r) ∧
          t.pc = s.pc + 4 ∧ t.le = s.le ∧ t.platform = s.platform ∧ ∀ a, memByte t.mem a = memByte s.mem a) ∧
      (∀ k < 32 - rt.val, (∀ j < k, Admitted s (ea + BitVec.ofNat 64 (4 * j)) 4) →
        ∀ f, Meets s (ea + BitVec.ofNat 64 (4 * k)) 4 f → exec (.lmw rt ra d) s = .fault f))

/-! All instructions. -/

/-- A fetched word of an invalid form raises `InvalidForm(w)`, whatever the registers hold and by whatever `DecodeTable` it is decoded; `lq` with RTp = RA raises `IllegalInstruction(w)`
instead, whether RTp is odd or even (30_encoding.md R100, R102). -/
def Obligations.InvalidFormsFaultAtTheStep : Prop :=
  ∀ (s : State) (w : InstrWord) (i : Instr), s.pc ≠ s.platform.endAddr → fetch s = .ok w →
    decodeBy s.platform.decodeTable w = .ok i →
    (i.wf = false → (∀ r dq, i ≠ .lq r r dq) → step s = .fault (.invalidForm w)) ∧
    ∀ r dq, i = .lq r r dq → step s = .fault (.illegalInstruction w)

/-- Which instructions are invalid forms: the 11 update forms with RA = 0 or RA = RT, `lq` with RTp odd or RTp = RA, `lmw` with RA in RT .. 31;
all else is valid, RA = 0 without update and RB = RT among it (30_encoding.md R100, R103). -/
def Obligations.ValidFormsAreThoseOfTheSpec : Prop :=
  ∀ (i : Instr), i.wf = true ↔
    (∀ rt ra d, i = .lbzu rt ra d ∨ i = .lhzu rt ra d ∨ i = .lhau rt ra d ∨ i = .lwzu rt ra d → ra ≠ 0 ∧ ra ≠ rt) ∧
    (∀ rt ra ds, i = .ldu rt ra ds → ra ≠ 0 ∧ ra ≠ rt) ∧
    (∀ rt ra rb, i = .lbzux rt ra rb ∨ i = .lhzux rt ra rb ∨ i = .lhaux rt ra rb ∨ i = .lwzux rt ra rb ∨ i = .lwaux rt ra rb ∨
      i = .ldux rt ra rb → ra ≠ 0 ∧ ra ≠ rt) ∧
    (∀ rtp ra dq, i = .lq rtp ra dq → rtp.val % 2 = 0 ∧ rtp ≠ ra) ∧
    (∀ rt ra d, i = .lmw rt ra d → ra < rt)

/-- The faults of an instruction, each with the info that belongs to it, are those of R190 and no others. `IllegalInstruction(w)`: `lq` with
RTp = RA. `InvalidForm(w)`: every other invalid form. `Alignment(w)`: `lmw` of a valid form in Little-Endian mode. `Alignment(a)` and
`StorageFault(a)`: of a valid form, the fault that `check` raises at one of the instruction's own accesses, every access before it being admitted
(60_exceptions.md R190 to R194 and R196, 46_load_multiple.md R181). -/
def Obligations.FaultsHaveTheirCauses : Prop :=
  ∀ (i : Instr) (s : State) (f : Fault), exec i s = .fault f ↔
    (f = .illegalInstruction (encode i) ∧ ∃ r dq, i = .lq r r dq) ∨
    (f = .invalidForm (encode i) ∧ i.wf = false ∧ ∀ r dq, i ≠ .lq r r dq) ∨
    (f = .alignment (.word (encode i)) ∧ s.le = true ∧ i.wf = true ∧ i.mnemonic = .lmw) ∨
    (i.wf = true ∧ (i.mnemonic = .lmw → s.le = false) ∧
      ∃ pre ea n post, accesses i s = pre ++ (ea, n) :: post ∧ (∀ p ∈ pre, Admitted s p.1 p.2) ∧ Meets s ea n f)

/-- Each instruction answers a next state or a fault (00_scope.md R18), and none is refused. That none is refused is the model's choice (log 2):
every register holds a value, so the refusal `UnwrittenRegister`, test 6 of 60_exceptions.md R196 and an outcome of 70_reset_and_hazards.md R223,
cannot occur. -/
def Obligations.EveryInstructionCompletesOrFaults : Prop :=
  ∀ (i : Instr) (s : State), (∃ t, exec i s = .next t) ∨ ∃ f, exec i s = .fault f

/-- Where misaligned accesses are performed and every byte is readable, the parameters' defaults, every valid form completes, `lmw` in
Big-Endian mode (20_memory.md R53, 60_exceptions.md R192). That it needs no register to have been written is the model's choice (log 2). -/
def Obligations.ValidFormsCompleteUnderTheDefaults : Prop :=
  ∀ (i : Instr) (s : State), i.wf = true → s.platform.misalignedOK = true → (∀ a, Readable s a) →
    (s.le = false ∨ i.mnemonic ≠ .lmw) → ∃ t, exec i s = .next t

/-- The frame of every instruction: a completing instruction leaves every register that R32 does not list as written, LE, the platform and
storage as they were, and adds 4 to `pc` (10_state.md R32, R35, R43; 95_test_vectors.md section 6, property 7). -/
def Obligations.FrameOfEveryInstruction : Prop :=
  ∀ (i : Instr) (s t : State), exec i s = .next t →
    (∀ r, r ∉ writes i → t.reg r = s.reg r) ∧ t.pc = s.pc + 4 ∧ t.le = s.le ∧ t.platform = s.platform ∧ t.mem = s.mem ∧
    ∀ a, memByte t.mem a = memByte s.mem a

/-- What an instruction does depends on no register that R32 does not list as read, and not on `pc`: in two states that agree on the
registers read, LE, storage and the platform it meets the same fault, or completes with the same values written (10_state.md R31, R32, R35). -/
def Obligations.RegistersNotReadDoNotMatter : Prop :=
  ∀ (i : Instr) (s u : State), (∀ r ∈ reads i, s.reg r = u.reg r) → s.le = u.le → s.mem = u.mem → s.platform = u.platform →
    (∀ f, exec i s = .fault f → exec i u = .fault f) ∧
    ∀ t, exec i s = .next t → ∃ t', exec i u = .next t' ∧ ∀ r ∈ writes i, t.reg r = t'.reg r

/-- The 26 single-register loads follow the common scheme with the attributes of the table (47_common_semantics.md R187, R188). -/
def Obligations.SingleRegisterLoadsFollowTheScheme : Prop :=
  ∀ (i : Instr) (a : LoadShape) (s : State), shapeOf i = some a → exec i s = schemeExec (encode i) a s

/-- A byte-reverse load does what the plain load does in the other byte-order mode (45_load_byte_reverse.md R170; 95_test_vectors.md section 6,
property 1). -/
def Obligations.ByteReverseLoadsReadInTheOtherMode : Prop :=
  ∀ (s : State) (rt ra rb : RegNum),
    exec (.lhbrx rt ra rb) s = otherModeOut (exec (.lhzx rt ra rb) (otherMode s)) ∧
    exec (.lwbrx rt ra rb) s = otherModeOut (exec (.lwzx rt ra rb) (otherMode s)) ∧
    exec (.ldbrx rt ra rb) s = otherModeOut (exec (.ldx rt ra rb) (otherMode s))

/-- The byte loads do the same in both byte-order modes (20_memory.md R51; 95_test_vectors.md section 6, property 2). -/
def Obligations.ByteLoadsIgnoreTheMode : Prop :=
  ∀ (s : State) (rt ra rb : RegNum) (d : BitVec 16),
    exec (.lbz rt ra d) (otherMode s) = otherModeOut (exec (.lbz rt ra d) s) ∧
    exec (.lbzx rt ra rb) (otherMode s) = otherModeOut (exec (.lbzx rt ra rb) s) ∧
    exec (.lbzu rt ra d) (otherMode s) = otherModeOut (exec (.lbzu rt ra d) s) ∧
    exec (.lbzux rt ra rb) (otherMode s) = otherModeOut (exec (.lbzux rt ra rb) s)

/-- A valid update form does what the form without update does and, in addition, writes the effective address to RA
(95_test_vectors.md section 6, property 4; 47_common_semantics.md R188). -/
def Obligations.UpdateFormsAddTheBaseWrite : Prop :=
  ∀ (s : State) (rt ra rb : RegNum) (d : BitVec 16) (ds : BitVec 14), ra ≠ 0 → ra ≠ rt →
    ∀ p ∈ [(Instr.lbz rt ra d, Instr.lbzu rt ra d, s.reg ra + sextD d), (.lhz rt ra d, .lhzu rt ra d, s.reg ra + sextD d),
      (.lha rt ra d, .lhau rt ra d, s.reg ra + sextD d), (.lwz rt ra d, .lwzu rt ra d, s.reg ra + sextD d),
      (.ld rt ra ds, .ldu rt ra ds, s.reg ra + sextDS ds), (.lbzx rt ra rb, .lbzux rt ra rb, s.reg ra + s.reg rb),
      (.lhzx rt ra rb, .lhzux rt ra rb, s.reg ra + s.reg rb), (.lhax rt ra rb, .lhaux rt ra rb, s.reg ra + s.reg rb),
      (.lwzx rt ra rb, .lwzux rt ra rb, s.reg ra + s.reg rb), (.lwax rt ra rb, .lwaux rt ra rb, s.reg ra + s.reg rb),
      (.ldx rt ra rb, .ldux rt ra rb, s.reg ra + s.reg rb)],
      (∀ t, exec p.1 s = .next t → exec p.2.1 s = .next (t.setReg ra p.2.2)) ∧
      (∀ f, exec p.1 s = .fault f → exec p.2.1 s = .fault f)

/-- An indexed form whose index register holds the displacement does what the displacement form does
(95_test_vectors.md section 6, property 3). -/
def Obligations.IndexedFormsAgreeWithDisplacementForms : Prop :=
  ∀ (s : State) (rt ra rb : RegNum) (d : BitVec 16) (ds : BitVec 14),
    (s.reg rb = sextD d →
      exec (.lbzx rt ra rb) s = exec (.lbz rt ra d) s ∧ exec (.lhzx rt ra rb) s = exec (.lhz rt ra d) s ∧
      exec (.lhax rt ra rb) s = exec (.lha rt ra d) s ∧ exec (.lwzx rt ra rb) s = exec (.lwz rt ra d) s) ∧
    (s.reg rb = sextDS ds →
      exec (.lwax rt ra rb) s = exec (.lwa rt ra ds) s ∧ exec (.ldx rt ra rb) s = exec (.ld rt ra ds) s) ∧
    (s.reg rb = sextD d → ra ≠ 0 → ra ≠ rt →
      exec (.lbzux rt ra rb) s = exec (.lbzu rt ra d) s ∧ exec (.lhzux rt ra rb) s = exec (.lhzu rt ra d) s ∧
      exec (.lhaux rt ra rb) s = exec (.lhau rt ra d) s ∧ exec (.lwzux rt ra rb) s = exec (.lwzu rt ra d) s) ∧
    (s.reg rb = sextDS ds → ra ≠ 0 → ra ≠ rt → exec (.ldux rt ra rb) s = exec (.ldu rt ra ds) s)

/-- `lq` gives its pair what two `ld` at EA and EA + 8 give, the even register the one at EA in Big-Endian mode and the one at EA + 8 in
Little-Endian mode (44_load_quadword.md R162; 95_test_vectors.md section 6, property 5). -/
def Obligations.QuadwordIsTwoDoublewords : Prop :=
  ∀ (s t t0 t8 : State) (rtp ra : RegNum) (dq : BitVec 12), exec (.lq rtp ra dq) s = .next t →
    exec (.ld rtp ra (dq ++ 0#2)) s = .next t0 → exec (.ld rtp ra (dq ++ 2#2)) s = .next t8 →
    (s.le = false → t.reg rtp = t0.reg rtp ∧ t.reg (rtp + 1) = t8.reg rtp) ∧
    (s.le = true → t.reg rtp = t8.reg rtp ∧ t.reg (rtp + 1) = t0.reg rtp)

/-- `lmw` gives each of its registers what `lwzx` gives from the word's address, held in any index register
(46_load_multiple.md R180; 95_test_vectors.md section 6, property 6). -/
def Obligations.MultipleIsWordsOneByOne : Prop :=
  ∀ (s t u v : State) (rt ra r q : RegNum) (d : BitVec 16), exec (.lmw rt ra d) s = .next t → rt ≤ r →
    u = s.setReg q (raz s ra + sextD d + BitVec.ofNat 64 (4 * (r.val - rt.val))) → exec (.lwzx r 0 q) u = .next v →
    t.reg r = v.reg r

/-- A load without update and with RA = 0 reads from the sign-extended displacement, in the lowest or the highest 2^15 bytes of storage,
whatever the registers hold (70_reset_and_hazards.md R222). -/
def Obligations.AbsoluteLoadsReachTheEndsOfStorage : Prop :=
  ∀ (s : State),
    (∀ d, eaDisp s 0 (dispD d) = sextD d ∧ ((sextD d).toNat < 0x8000 ∨ 0xFFFFFFFFFFFF8000 ≤ (sextD d).toNat)) ∧
    (∀ ds, eaDisp s 0 (dispDS ds) = sextDS ds ∧ ((sextDS ds).toNat < 0x8000 ∨ 0xFFFFFFFFFFFF8000 ≤ (sextDS ds).toNat)) ∧
    (∀ dq, eaDisp s 0 (dispDQ dq) = sextDQ dq ∧ ((sextDQ dq).toNat < 0x8000 ∨ 0xFFFFFFFFFFFF8000 ≤ (sextDQ dq).toNat))

/-! Steps and runs. -/

/-- When the word at `pc` decodes to an instruction by the configured `DecodeTable`, the step is that instruction, a fault recording the fetched
word: a next state is the one that the instruction answers, and by the default table the whole outcome is (70_reset_and_hazards.md R223,
60_exceptions.md R190). -/
def Obligations.StepRunsTheDecodedInstruction : Prop :=
  ∀ (s : State) (w : InstrWord) (i : Instr), s.pc ≠ s.platform.endAddr → Admitted s s.pc 4 → w = word s.le s.mem s.pc →
    decodeBy s.platform.decodeTable w = .ok i →
    step s = recordWord w (exec i s) ∧ (∀ t, exec i s = .next t → step s = .next t) ∧
    (s.platform.decodeTable = decodeTable → step s = exec i s)

/-- The other outcomes of a step: a fetch that meets a fault faults with it, a word that matches no row is illegal, and at `EndAddr` nothing
is fetched (70_reset_and_hazards.md R223, R224; 60_exceptions.md R196). That a step at `EndAddr` is a refusal is the model's choice (log 6), and
so is the fault of a fetch at a misaligned `pc` (log 14). -/
def Obligations.StepStopsWhereItCannotRun : Prop :=
  ∀ s : State,
    (s.pc = s.platform.endAddr → step s = .refused .endOfRun) ∧
    (s.pc ≠ s.platform.endAddr → (∀ f, Meets s s.pc 4 f → step s = .fault f) ∧
      (Admitted s s.pc 4 → ∀ e, decodeBy s.platform.decodeTable (word s.le s.mem s.pc) = .error e →
        step s = .fault (.illegalInstruction (word s.le s.mem s.pc))))

/-- Every step keeps the invariant: `pc` and `EndAddr` multiples of 4 (10_state.md R36), storage in its canonical form (log 5). -/
def Obligations.EveryStepKeepsTheInvariant : Prop :=
  ∀ s t : State, Inv s → step s = .next t → Inv t

/-- Every start state with `EntryPoint` and `EndAddr` multiples of 4 and storage in its canonical form has the invariant, the reset state
among them (70_reset_and_hazards.md R220, R221). What the reset state holds of them is the model's choice (logs 3, 5, 6). -/
def Obligations.StartStatesHaveTheInvariant : Prop :=
  Inv State.reset ∧
  ∀ (x : Vector Word 32) (e : Word) (le : Bool) (m : Memory) (p : Config.Platform),
    e.toNat % 4 = 0 → p.endAddr.toNat % 4 = 0 → Memory.wf m = true → Inv (State.start x e le m p)

/-- After reset misaligned accesses are performed, every address is readable, and the decode table is the opcode map, the defaults of the spec
(00_scope.md R8, 20_memory.md R66, 30_encoding.md R95). -/
def Obligations.ResetHasTheDefaultPlatform : Prop :=
  State.reset.platform.misalignedOK = true ∧ (∀ a, Readable State.reset a) ∧ State.reset.platform.decodeTable = decodeTable

/-- k steps that do not stop leave storage, LE and the platform as they were at the start, so that every load reads the start's bytes, and add 4k to
`pc` (10_state.md R43, 20_memory.md R69, 47_common_semantics.md R186). -/
def Obligations.RunsNeverChangeStorage : Prop :=
  ∀ (k : Nat) (s t : State), Sys2Proof.core.run k s = .next t →
    t.mem = s.mem ∧ t.le = s.le ∧ t.platform = s.platform ∧ t.pc = s.pc + BitVec.ofNat 64 (4 * k)

/-- A run ends after exactly ((EndAddr - EntryPoint) mod 2^64) / 4 steps unless it faults first, is never refused on the way, and stands
at the faulting instruction where it faults (70_reset_and_hazards.md R224, 60_exceptions.md R195). That it is never refused is the model's choice
(log 2): R224 ends a run at the first fault or refusal, and here no register can hold no value, so `UnwrittenRegister` cannot occur. -/
def Obligations.RunEndsOnSchedule : Prop :=
  ∀ s : State, PcAligned s →
    ((∃ t, runTo (stepsToEnd s) s = .ended t ∧ t.pc = s.platform.endAddr) ∨
      ∃ f t, runTo (stepsToEnd s) s = .faulted f t ∧ step t = .fault f) ∧
    ∀ k < stepsToEnd s, ∀ t, runTo k s ≠ .ended t
end

