-- ==== Sys2Proof/Laws/Encoding.lean ====
section
/-! SUPPORT. The bits of a word built from a format, and the fields read back from it. -/

namespace Sys2Proof

/-! The bits of each format, from the least significant field on. -/

theorem dForm_bit (po : BitVec 6) (rt ra : RegNum) (d : BitVec 16) (i : Nat) :
    (dForm po rt ra d).getLsbD i =
      if i < 16 then d.getLsbD i else if i - 16 < 5 then (regBits ra).getLsbD (i - 16)
      else if i - 16 - 5 < 5 then (regBits rt).getLsbD (i - 16 - 5) else po.getLsbD (i - 16 - 5 - 5) := by
  show (po ++ regBits rt ++ regBits ra ++ d).getLsbD i = _
  simp only [BitVec.getLsbD_append]

theorem dsForm_bit (po : BitVec 6) (rt ra : RegNum) (ds : BitVec 14) (xo : BitVec 2) (i : Nat) :
    (dsForm po rt ra ds xo).getLsbD i =
      if i < 2 then xo.getLsbD i else if i - 2 < 14 then ds.getLsbD (i - 2)
      else if i - 2 - 14 < 5 then (regBits ra).getLsbD (i - 2 - 14)
      else if i - 2 - 14 - 5 < 5 then (regBits rt).getLsbD (i - 2 - 14 - 5) else po.getLsbD (i - 2 - 14 - 5 - 5) := by
  show (po ++ regBits rt ++ regBits ra ++ ds ++ xo).getLsbD i = _
  simp only [BitVec.getLsbD_append]

theorem dqForm_bit (po : BitVec 6) (rtp ra : RegNum) (dq : BitVec 12) (i : Nat) :
    (dqForm po rtp ra dq).getLsbD i =
      if i < 4 then (0 : BitVec 4).getLsbD i else if i - 4 < 12 then dq.getLsbD (i - 4)
      else if i - 4 - 12 < 5 then (regBits ra).getLsbD (i - 4 - 12)
      else if i - 4 - 12 - 5 < 5 then (regBits rtp).getLsbD (i - 4 - 12 - 5) else po.getLsbD (i - 4 - 12 - 5 - 5) := by
  show (po ++ regBits rtp ++ regBits ra ++ dq ++ (0 : BitVec 4)).getLsbD i = _
  simp only [BitVec.getLsbD_append]

theorem xForm_bit (po : BitVec 6) (rt ra rb : RegNum) (xo : BitVec 10) (i : Nat) :
    (xForm po rt ra rb xo).getLsbD i =
      if i < 1 then (0 : BitVec 1).getLsbD i else if i - 1 < 10 then xo.getLsbD (i - 1)
      else if i - 1 - 10 < 5 then (regBits rb).getLsbD (i - 1 - 10)
      else if i - 1 - 10 - 5 < 5 then (regBits ra).getLsbD (i - 1 - 10 - 5)
      else if i - 1 - 10 - 5 - 5 < 5 then (regBits rt).getLsbD (i - 1 - 10 - 5 - 5)
      else po.getLsbD (i - 1 - 10 - 5 - 5 - 5) := by
  show (po ++ regBits rt ++ regBits ra ++ regBits rb ++ xo ++ (0 : BitVec 1)).getLsbD i = _
  simp only [BitVec.getLsbD_append]

/-- Bit `i` of a register field. -/
theorem regField_eq {w : InstrWord} {lo : Nat} {r : RegNum} (h : ∀ i < 5, w.getLsbD (lo + i) = (regBits r).getLsbD i) :
    regField w lo = r := by
  have e : w.extractLsb' lo 5 = regBits r := by
    apply BitVec.eq_of_getLsbD_eq
    intro i hi
    simp [hi, h i hi]
  unfold regField
  rw [e]
  rfl

/-- Bit `i` of any other field. -/
theorem field_eq {w : InstrWord} {lo n : Nat} {v : BitVec n} (h : ∀ i < n, w.getLsbD (lo + i) = v.getLsbD i) :
    w.extractLsb' lo n = v := by
  apply BitVec.eq_of_getLsbD_eq
  intro i hi
  simp [hi, h i hi]

/-! The fields read back. -/

@[simp] theorem fieldRT_dForm (po : BitVec 6) (rt ra : RegNum) (d : BitVec 16) : fieldRT dPlaces (dForm po rt ra d) = rt := by
  apply regField_eq
  intro i hi
  simp only [dPlaces]
  rw [dForm_bit, if_neg (by omega), if_neg (by omega), if_pos (by omega)]
  congr 1; omega

@[simp] theorem fieldRA_dForm (po : BitVec 6) (rt ra : RegNum) (d : BitVec 16) : fieldRA dPlaces (dForm po rt ra d) = ra := by
  apply regField_eq
  intro i hi
  simp only [dPlaces]
  rw [dForm_bit, if_neg (by omega), if_pos (by omega)]
  congr 1; omega

@[simp] theorem fieldD_dForm (po : BitVec 6) (rt ra : RegNum) (d : BitVec 16) : fieldD dPlaces (dForm po rt ra d) = d := by
  apply field_eq
  intro i hi
  simp only [dPlaces]
  rw [dForm_bit, if_pos (by omega)]
  congr 1; omega

@[simp] theorem fieldRT_dsForm (po : BitVec 6) (rt ra : RegNum) (ds : BitVec 14) (xo : BitVec 2) :
    fieldRT dsPlaces (dsForm po rt ra ds xo) = rt := by
  apply regField_eq
  intro i hi
  simp only [dsPlaces]
  rw [dsForm_bit, if_neg (by omega), if_neg (by omega), if_neg (by omega), if_pos (by omega)]
  congr 1; omega

@[simp] theorem fieldRA_dsForm (po : BitVec 6) (rt ra : RegNum) (ds : BitVec 14) (xo : BitVec 2) :
    fieldRA dsPlaces (dsForm po rt ra ds xo) = ra := by
  apply regField_eq
  intro i hi
  simp only [dsPlaces]
  rw [dsForm_bit, if_neg (by omega), if_neg (by omega), if_pos (by omega)]
  congr 1; omega

@[simp] theorem fieldDS_dsForm (po : BitVec 6) (rt ra : RegNum) (ds : BitVec 14) (xo : BitVec 2) :
    fieldDS dsPlaces (dsForm po rt ra ds xo) = ds := by
  apply field_eq
  intro i hi
  simp only [dsPlaces]
  rw [dsForm_bit, if_neg (by omega), if_pos (by omega)]
  congr 1; omega

@[simp] theorem fieldRT_dqForm (po : BitVec 6) (rtp ra : RegNum) (dq : BitVec 12) : fieldRT dqPlaces (dqForm po rtp ra dq) = rtp := by
  apply regField_eq
  intro i hi
  simp only [dqPlaces]
  rw [dqForm_bit, if_neg (by omega), if_neg (by omega), if_neg (by omega), if_pos (by omega)]
  congr 1; omega

@[simp] theorem fieldRA_dqForm (po : BitVec 6) (rtp ra : RegNum) (dq : BitVec 12) : fieldRA dqPlaces (dqForm po rtp ra dq) = ra := by
  apply regField_eq
  intro i hi
  simp only [dqPlaces]
  rw [dqForm_bit, if_neg (by omega), if_neg (by omega), if_pos (by omega)]
  congr 1; omega

@[simp] theorem fieldDQ_dqForm (po : BitVec 6) (rtp ra : RegNum) (dq : BitVec 12) : fieldDQ dqPlaces (dqForm po rtp ra dq) = dq := by
  apply field_eq
  intro i hi
  simp only [dqPlaces]
  rw [dqForm_bit, if_neg (by omega), if_pos (by omega)]
  congr 1; omega

@[simp] theorem fieldRT_xForm (po : BitVec 6) (rt ra rb : RegNum) (xo : BitVec 10) : fieldRT xPlaces (xForm po rt ra rb xo) = rt := by
  apply regField_eq
  intro i hi
  simp only [xPlaces]
  rw [xForm_bit, if_neg (by omega), if_neg (by omega), if_neg (by omega), if_neg (by omega), if_pos (by omega)]
  congr 1; omega

@[simp] theorem fieldRA_xForm (po : BitVec 6) (rt ra rb : RegNum) (xo : BitVec 10) : fieldRA xPlaces (xForm po rt ra rb xo) = ra := by
  apply regField_eq
  intro i hi
  simp only [xPlaces]
  rw [xForm_bit, if_neg (by omega), if_neg (by omega), if_neg (by omega), if_pos (by omega)]
  congr 1; omega

@[simp] theorem fieldRB_xForm (po : BitVec 6) (rt ra rb : RegNum) (xo : BitVec 10) : fieldRB xPlaces (xForm po rt ra rb xo) = rb := by
  apply regField_eq
  intro i hi
  simp only [xPlaces]
  rw [xForm_bit, if_neg (by omega), if_neg (by omega), if_pos (by omega)]
  congr 1; omega

/-! The fixed bits of each format: what is left of a word under the mask of its rows. -/

theorem dForm_and_mask (po : BitVec 6) (rt ra : RegNum) (d : BitVec 16) :
    dForm po rt ra d &&& 0xFC000000 = dForm po 0 0 0 := by
  apply BitVec.eq_of_getLsbD_eq
  intro i hi
  rw [BitVec.getLsbD_and, dForm_bit, dForm_bit]
  interval_cases i <;> simp [regBits]

theorem dsForm_and_mask (po : BitVec 6) (rt ra : RegNum) (ds : BitVec 14) (xo : BitVec 2) :
    dsForm po rt ra ds xo &&& 0xFC000003 = dsForm po 0 0 0 xo := by
  apply BitVec.eq_of_getLsbD_eq
  intro i hi
  rw [BitVec.getLsbD_and, dsForm_bit, dsForm_bit]
  interval_cases i <;> simp [regBits]

theorem dqForm_and_mask (po : BitVec 6) (rtp ra : RegNum) (dq : BitVec 12) :
    dqForm po rtp ra dq &&& 0xFC00000F = dqForm po 0 0 0 := by
  apply BitVec.eq_of_getLsbD_eq
  intro i hi
  rw [BitVec.getLsbD_and, dqForm_bit, dqForm_bit]
  interval_cases i <;> simp [regBits]

theorem xForm_and_mask (po : BitVec 6) (rt ra rb : RegNum) (xo : BitVec 10) :
    xForm po rt ra rb xo &&& 0xFC0007FF = xForm po 0 0 0 xo := by
  apply BitVec.eq_of_getLsbD_eq
  intro i hi
  rw [BitVec.getLsbD_and, xForm_bit, xForm_bit]
  interval_cases i <;> simp [regBits]

end Sys2Proof
end

