-- ==== Sys2Proof/Laws/Memory.lean ====
section
/-! SUPPORT. Storage: every operation keeps the canonical form, a byte written is read back, and every other byte is unchanged. -/

namespace Sys2Proof.Machine

theorem Memory.wfFrom_cons (lo k : Nat) (c : Byte) (m : Memory) :
    Memory.wfFrom lo ((k, c) :: m) = true ↔
      lo ≤ k ∧ k < Config.addressSpace ∧ c ≠ Memory.unlisted ∧ Memory.wfFrom (k + 1) m = true := by
  simp [Memory.wfFrom, and_assoc]

theorem Memory.wfFrom_mono {lo lo' : Nat} (h : lo' ≤ lo) : ∀ {m : Memory}, Memory.wfFrom lo m = true → Memory.wfFrom lo' m = true
  | [], _ => rfl
  | (k, c) :: m, hm => by
    rw [Memory.wfFrom_cons] at hm ⊢
    exact ⟨by omega, hm.2⟩

/-- Writing a byte keeps the canonical form. -/
theorem Memory.write_wfFrom (a : Nat) (b : Byte) (ha : a < Config.addressSpace) :
    ∀ (m : Memory) (lo : Nat), lo ≤ a → Memory.wfFrom lo m = true → Memory.wfFrom lo (Memory.write m a b) = true
  | [], lo, hlo, _ => by
    by_cases hb : b = Memory.unlisted
    · simp [Memory.write, hb, Memory.wfFrom]
    · simp [Memory.write, hb, Memory.wfFrom, hlo, ha]
  | (k, c) :: m, lo, hlo, hm => by
    obtain ⟨h1, h2, h3, h4⟩ := (Memory.wfFrom_cons lo k c m).1 hm
    unfold Memory.write
    split
    · split
      · exact hm
      · rename_i hlt hb
        exact (Memory.wfFrom_cons ..).2 ⟨hlo, ha, hb, (Memory.wfFrom_cons ..).2 ⟨hlt, h2, h3, h4⟩⟩
    · split
      · subst_vars
        split
        · exact Memory.wfFrom_mono (by omega) h4
        · rename_i hb
          exact (Memory.wfFrom_cons ..).2 ⟨hlo, ha, hb, h4⟩
      · exact (Memory.wfFrom_cons ..).2 ⟨h1, h2, h3, Memory.write_wfFrom a b ha m (k + 1) (by omega) h4⟩

theorem Memory.write_wf {m : Memory} (hm : Memory.wf m = true) (a : Nat) (b : Byte) (ha : a < Config.addressSpace) :
    Memory.wf (Memory.write m a b) = true :=
  Memory.write_wfFrom a b ha m 0 (Nat.zero_le a) hm

/-- Writing bytes keeps the canonical form. -/
theorem Memory.writeBytes_wf (bs : List Byte) :
    ∀ (m : Memory) (a : Word), Memory.wf m = true → Memory.wf (Memory.writeBytes m a bs) = true := by
  induction bs with
  | nil => intro m a hm; exact hm
  | cons b bs ih => intro m a hm; exact ih _ _ (Memory.write_wf hm _ _ a.isLt)

/-- `MemWrite` keeps the canonical form. -/
theorem memWrite_wf (s : State) (a : Word) (n : Nat) (v : BitVec (8 * n)) (hm : Memory.wf s.mem = true) :
    Memory.wf (memWrite s a n v).mem = true :=
  Memory.writeBytes_wf _ _ _ hm

/-- An address below every entry is not listed. -/
theorem Memory.read_below : ∀ {m : Memory} {lo a : Nat}, Memory.wfFrom lo m = true → a < lo → Memory.read m a = Memory.unlisted
  | [], _, _, _, _ => rfl
  | (k, c) :: m, lo, a, hm, ha => by
    obtain ⟨h1, _, _, h4⟩ := (Memory.wfFrom_cons lo k c m).1 hm
    have hne : a ≠ k := by omega
    simp only [Memory.read, hne, if_false]
    exact Memory.read_below h4 (by omega)

/-- A byte written is read back, and every other byte is unchanged. -/
theorem Memory.read_write : ∀ (m : Memory) (lo a b : Nat) (v : Byte), Memory.wfFrom lo m = true →
    Memory.read (Memory.write m a v) b = if b = a then v else Memory.read m b
  | [], _, a, b, v, _ => by
    by_cases hv : v = Memory.unlisted <;> by_cases hb : b = a <;> simp [Memory.write, Memory.read, hv, hb]
  | (k, c) :: m, lo, a, b, v, hm => by
    obtain ⟨h1, h2, h3, h4⟩ := (Memory.wfFrom_cons lo k c m).1 hm
    unfold Memory.write
    split
    · rename_i hlt
      split
      · rename_i hv
        by_cases hb : b = a
        · subst hb
          have hne : b ≠ k := by omega
          simp only [Memory.read, hne, if_false, if_true, hv]
          exact Memory.read_below h4 (by omega)
        · simp [hb]
      · by_cases hb : b = a <;> simp [Memory.read, hb]
    · rename_i hlt
      split
      · rename_i heq
        subst heq
        split
        · rename_i hv
          by_cases hb : b = a
          · subst hb
            simp only [if_true, hv]
            exact Memory.read_below h4 (by omega)
          · simp [Memory.read, hb]
        · by_cases hb : b = a <;> simp [Memory.read, hb]
      · rename_i hne
        simp only [Memory.read]
        by_cases hbk : b = k
        · have : b ≠ a := by omega
          simp [hbk]
          intro h; omega
        · simp only [hbk, if_false]
          exact Memory.read_write m (k + 1) a b v h4

theorem memByte_write {m : Memory} (hm : Memory.wf m = true) (a b : Word) (v : Byte) :
    memByte (Memory.write m a.toNat v) b = if b = a then v else memByte m b := by
  unfold memByte
  rw [Memory.read_write m 0 _ _ _ hm]
  by_cases h : b = a
  · simp [h]
  · have : b.toNat ≠ a.toNat := fun e => h (BitVec.eq_of_toNat_eq e)
    simp [h, this]

end Sys2Proof.Machine
end

