-- ==== Sys2Proof/Laws/PerInstr.lean ====
section
/-! SUPPORT. One family over all instructions, one lemma for each constructor: the word of an instruction selects the row of its mnemonic. -/

namespace Sys2Proof.Laws.EncodedInItsRow

/-- The row of the table with the instruction's mnemonic is selected by the instruction's word. -/
def Statement (i : Instr) : Prop := ∃ row ∈ decodeTable, row.name = i.mnemonic ∧ row.selects (encode i) = true

/-- A row given by its columns. -/
theorem of_row {i : Instr} (name : Mnemonic) (pattern mask : InstrWord) (places : FieldPlaces)
    (hmem : ⟨name, pattern, mask, places⟩ ∈ decodeTable) (hname : name = i.mnemonic) (hsel : encode i &&& mask = pattern) : Statement i :=
  ⟨⟨name, pattern, mask, places⟩, hmem, hname, by simp [Row.selects, hsel]⟩

theorem lbz (rt ra : RegNum) (d : BitVec 16) : Statement (.lbz rt ra d) :=
  of_row .lbz 0x88000000 0xFC000000 dPlaces (by decide) rfl (dForm_and_mask ..)

theorem lbzx (rt ra rb : RegNum) : Statement (.lbzx rt ra rb) :=
  of_row .lbzx 0x7C0000AE 0xFC0007FF xPlaces (by decide) rfl (xForm_and_mask ..)

theorem lbzu (rt ra : RegNum) (d : BitVec 16) : Statement (.lbzu rt ra d) :=
  of_row .lbzu 0x8C000000 0xFC000000 dPlaces (by decide) rfl (dForm_and_mask ..)

theorem lbzux (rt ra rb : RegNum) : Statement (.lbzux rt ra rb) :=
  of_row .lbzux 0x7C0000EE 0xFC0007FF xPlaces (by decide) rfl (xForm_and_mask ..)

theorem lhz (rt ra : RegNum) (d : BitVec 16) : Statement (.lhz rt ra d) :=
  of_row .lhz 0xA0000000 0xFC000000 dPlaces (by decide) rfl (dForm_and_mask ..)

theorem lhzx (rt ra rb : RegNum) : Statement (.lhzx rt ra rb) :=
  of_row .lhzx 0x7C00022E 0xFC0007FF xPlaces (by decide) rfl (xForm_and_mask ..)

theorem lhzu (rt ra : RegNum) (d : BitVec 16) : Statement (.lhzu rt ra d) :=
  of_row .lhzu 0xA4000000 0xFC000000 dPlaces (by decide) rfl (dForm_and_mask ..)

theorem lhzux (rt ra rb : RegNum) : Statement (.lhzux rt ra rb) :=
  of_row .lhzux 0x7C00026E 0xFC0007FF xPlaces (by decide) rfl (xForm_and_mask ..)

theorem lha (rt ra : RegNum) (d : BitVec 16) : Statement (.lha rt ra d) :=
  of_row .lha 0xA8000000 0xFC000000 dPlaces (by decide) rfl (dForm_and_mask ..)

theorem lhax (rt ra rb : RegNum) : Statement (.lhax rt ra rb) :=
  of_row .lhax 0x7C0002AE 0xFC0007FF xPlaces (by decide) rfl (xForm_and_mask ..)

theorem lhau (rt ra : RegNum) (d : BitVec 16) : Statement (.lhau rt ra d) :=
  of_row .lhau 0xAC000000 0xFC000000 dPlaces (by decide) rfl (dForm_and_mask ..)

theorem lhaux (rt ra rb : RegNum) : Statement (.lhaux rt ra rb) :=
  of_row .lhaux 0x7C0002EE 0xFC0007FF xPlaces (by decide) rfl (xForm_and_mask ..)

theorem lwz (rt ra : RegNum) (d : BitVec 16) : Statement (.lwz rt ra d) :=
  of_row .lwz 0x80000000 0xFC000000 dPlaces (by decide) rfl (dForm_and_mask ..)

theorem lwzx (rt ra rb : RegNum) : Statement (.lwzx rt ra rb) :=
  of_row .lwzx 0x7C00002E 0xFC0007FF xPlaces (by decide) rfl (xForm_and_mask ..)

theorem lwzu (rt ra : RegNum) (d : BitVec 16) : Statement (.lwzu rt ra d) :=
  of_row .lwzu 0x84000000 0xFC000000 dPlaces (by decide) rfl (dForm_and_mask ..)

theorem lwzux (rt ra rb : RegNum) : Statement (.lwzux rt ra rb) :=
  of_row .lwzux 0x7C00006E 0xFC0007FF xPlaces (by decide) rfl (xForm_and_mask ..)

theorem lwa (rt ra : RegNum) (ds : BitVec 14) : Statement (.lwa rt ra ds) :=
  of_row .lwa 0xE8000002 0xFC000003 dsPlaces (by decide) rfl (dsForm_and_mask ..)

theorem lwax (rt ra rb : RegNum) : Statement (.lwax rt ra rb) :=
  of_row .lwax 0x7C0002AA 0xFC0007FF xPlaces (by decide) rfl (xForm_and_mask ..)

theorem lwaux (rt ra rb : RegNum) : Statement (.lwaux rt ra rb) :=
  of_row .lwaux 0x7C0002EA 0xFC0007FF xPlaces (by decide) rfl (xForm_and_mask ..)

theorem ld (rt ra : RegNum) (ds : BitVec 14) : Statement (.ld rt ra ds) :=
  of_row .ld 0xE8000000 0xFC000003 dsPlaces (by decide) rfl (dsForm_and_mask ..)

theorem ldx (rt ra rb : RegNum) : Statement (.ldx rt ra rb) :=
  of_row .ldx 0x7C00002A 0xFC0007FF xPlaces (by decide) rfl (xForm_and_mask ..)

theorem ldu (rt ra : RegNum) (ds : BitVec 14) : Statement (.ldu rt ra ds) :=
  of_row .ldu 0xE8000001 0xFC000003 dsPlaces (by decide) rfl (dsForm_and_mask ..)

theorem ldux (rt ra rb : RegNum) : Statement (.ldux rt ra rb) :=
  of_row .ldux 0x7C00006A 0xFC0007FF xPlaces (by decide) rfl (xForm_and_mask ..)

theorem lq (rtp ra : RegNum) (dq : BitVec 12) : Statement (.lq rtp ra dq) :=
  of_row .lq 0xE0000000 0xFC00000F dqPlaces (by decide) rfl (dqForm_and_mask ..)

theorem lhbrx (rt ra rb : RegNum) : Statement (.lhbrx rt ra rb) :=
  of_row .lhbrx 0x7C00062C 0xFC0007FF xPlaces (by decide) rfl (xForm_and_mask ..)

theorem lwbrx (rt ra rb : RegNum) : Statement (.lwbrx rt ra rb) :=
  of_row .lwbrx 0x7C00042C 0xFC0007FF xPlaces (by decide) rfl (xForm_and_mask ..)

theorem ldbrx (rt ra rb : RegNum) : Statement (.ldbrx rt ra rb) :=
  of_row .ldbrx 0x7C000428 0xFC0007FF xPlaces (by decide) rfl (xForm_and_mask ..)

theorem lmw (rt ra : RegNum) (d : BitVec 16) : Statement (.lmw rt ra d) :=
  of_row .lmw 0xB8000000 0xFC000000 dPlaces (by decide) rfl (dForm_and_mask ..)

end Sys2Proof.Laws.EncodedInItsRow
end

