-- ==== Sys2Proof/Laws/State.lean ====
section
/-! SUPPORT. One lemma for each field of State and each update of it. -/

namespace Sys2Proof.Machine

/-! Writing a register. -/

@[simp] theorem State.setReg_pc (s : State) (r : RegNum) (v : Word) : (s.setReg r v).pc = s.pc := rfl
@[simp] theorem State.setReg_le (s : State) (r : RegNum) (v : Word) : (s.setReg r v).le = s.le := rfl
@[simp] theorem State.setReg_mem (s : State) (r : RegNum) (v : Word) : (s.setReg r v).mem = s.mem := rfl
@[simp] theorem State.setReg_platform (s : State) (r : RegNum) (v : Word) : (s.setReg r v).platform = s.platform := rfl

@[simp] theorem State.reg_setReg_same (s : State) (r : RegNum) (v : Word) : (s.setReg r v).reg r = v := by
  simp [State.reg, State.setReg]

@[simp] theorem State.reg_setReg_ne (s : State) (r q : RegNum) (v : Word) (h : r ≠ q) : (s.setReg r v).reg q = s.reg q := by
  have h' : r.val ≠ q.val := fun e => h (Fin.ext e)
  simp [State.reg, State.setReg, h']

theorem State.reg_setReg (s : State) (r q : RegNum) (v : Word) :
    (s.setReg r v).reg q = if r = q then v else s.reg q := by
  by_cases h : r = q
  · subst h; simp
  · simp [h]

/-- Two states agree when every register and every other field does. -/
theorem State.ext_reg {s t : State} (hx : ∀ r, s.reg r = t.reg r) (hpc : s.pc = t.pc) (hle : s.le = t.le) (hm : s.mem = t.mem)
    (hp : s.platform = t.platform) : s = t := by
  obtain ⟨x, pc, le, mem, pl⟩ := s
  obtain ⟨x', pc', le', mem', pl'⟩ := t
  have : x = x' := by
    apply Vector.ext
    intro i hi
    exact hx ⟨i, hi⟩
  simp_all

/-! Advancing pc. -/

@[simp] theorem State.advance_pc (s : State) : s.advance.pc = s.pc + 4 := rfl
@[simp] theorem State.advance_le (s : State) : s.advance.le = s.le := rfl
@[simp] theorem State.advance_mem (s : State) : s.advance.mem = s.mem := rfl
@[simp] theorem State.advance_platform (s : State) : s.advance.platform = s.platform := rfl
@[simp] theorem State.advance_x (s : State) : s.advance.x = s.x := rfl
@[simp] theorem State.advance_reg (s : State) (r : RegNum) : s.advance.reg r = s.reg r := rfl

/-! Writing storage. -/

@[simp] theorem memWrite_x (s : State) (a : Word) (n : Nat) (v : BitVec (8 * n)) : (memWrite s a n v).x = s.x := rfl
@[simp] theorem memWrite_pc (s : State) (a : Word) (n : Nat) (v : BitVec (8 * n)) : (memWrite s a n v).pc = s.pc := rfl
@[simp] theorem memWrite_le (s : State) (a : Word) (n : Nat) (v : BitVec (8 * n)) : (memWrite s a n v).le = s.le := rfl
@[simp] theorem memWrite_platform (s : State) (a : Word) (n : Nat) (v : BitVec (8 * n)) :
    (memWrite s a n v).platform = s.platform := rfl
@[simp] theorem memWrite_reg (s : State) (a : Word) (n : Nat) (v : BitVec (8 * n)) (r : RegNum) :
    (memWrite s a n v).reg r = s.reg r := rfl
@[simp] theorem memWrite_mem (s : State) (a : Word) (n : Nat) (v : BitVec (8 * n)) :
    (memWrite s a n v).mem = Memory.writeBytes s.mem a (layout s.le n v) := rfl

/-! Opening the fetch of a placed word. -/

@[simp] theorem openFetch_x (s : State) : (openFetch s).x = s.x := rfl
@[simp] theorem openFetch_pc (s : State) : (openFetch s).pc = s.pc := rfl
@[simp] theorem openFetch_le (s : State) : (openFetch s).le = s.le := rfl
@[simp] theorem openFetch_mem (s : State) : (openFetch s).mem = s.mem := rfl
@[simp] theorem openFetch_reg (s : State) (r : RegNum) : (openFetch s).reg r = s.reg r := rfl
@[simp] theorem openFetch_misalignedOK (s : State) : (openFetch s).platform.misalignedOK = s.platform.misalignedOK := rfl
@[simp] theorem openFetch_decodeTable (s : State) : (openFetch s).platform.decodeTable = s.platform.decodeTable := rfl
@[simp] theorem openFetch_endAddr (s : State) :
    (openFetch s).platform.endAddr = if s.pc = s.platform.endAddr then s.pc + 4 else s.platform.endAddr := rfl

/-! Writing the registers from `r` on. -/

@[simp] theorem State.setRegsFrom_pc (vs : List Word) : ∀ (s : State) (r : Nat), (s.setRegsFrom r vs).pc = s.pc := by
  induction vs with
  | nil => intros; rfl
  | cons v vs ih => intro s r; simp only [State.setRegsFrom]; split <;> simp [ih]

@[simp] theorem State.setRegsFrom_le (vs : List Word) : ∀ (s : State) (r : Nat), (s.setRegsFrom r vs).le = s.le := by
  induction vs with
  | nil => intros; rfl
  | cons v vs ih => intro s r; simp only [State.setRegsFrom]; split <;> simp [ih]

@[simp] theorem State.setRegsFrom_mem (vs : List Word) : ∀ (s : State) (r : Nat), (s.setRegsFrom r vs).mem = s.mem := by
  induction vs with
  | nil => intros; rfl
  | cons v vs ih => intro s r; simp only [State.setRegsFrom]; split <;> simp [ih]

@[simp] theorem State.setRegsFrom_platform (vs : List Word) :
    ∀ (s : State) (r : Nat), (s.setRegsFrom r vs).platform = s.platform := by
  induction vs with
  | nil => intros; rfl
  | cons v vs ih => intro s r; simp only [State.setRegsFrom]; split <;> simp [ih]

/-- A register below `r` is not written. -/
theorem State.reg_setRegsFrom_below (vs : List Word) :
    ∀ (s : State) (r : Nat) (q : RegNum), q.val < r → (s.setRegsFrom r vs).reg q = s.reg q := by
  induction vs with
  | nil => intros; rfl
  | cons v vs ih =>
    intro s r q h
    simp only [State.setRegsFrom]
    split
    · rw [ih _ _ _ (by omega), State.reg_setReg_ne _ _ _ _ (by intro e; subst e; simp at h)]
    · rfl

/-- Register `r + k` receives value `k`. -/
theorem State.reg_setRegsFrom_at (vs : List Word) :
    ∀ (s : State) (r : Nat) (q : RegNum) (k : Nat) (hk : k < vs.length), q.val = r + k →
      (s.setRegsFrom r vs).reg q = vs[k] := by
  induction vs with
  | nil => intro s r q k hk; simp at hk
  | cons v vs ih =>
    intro s r q k hk hq
    have hr : r < 32 := by have := q.isLt; omega
    simp only [State.setRegsFrom, hr, dite_true]
    cases k with
    | zero =>
      rw [State.reg_setRegsFrom_below _ _ _ _ (by omega)]
      have : (⟨r, hr⟩ : RegNum) = q := Fin.ext (by simpa using hq.symm)
      rw [this]; simp
    | succ k =>
      rw [ih _ _ q k (by simpa using hk) (by omega)]
      simp

/-- A register above the last value is not written. -/
theorem State.reg_setRegsFrom_above (vs : List Word) :
    ∀ (s : State) (r : Nat) (q : RegNum), r + vs.length ≤ q.val → (s.setRegsFrom r vs).reg q = s.reg q := by
  induction vs with
  | nil => intros; rfl
  | cons v vs ih =>
    intro s r q h
    simp only [List.length_cons] at h
    simp only [State.setRegsFrom]
    split
    · rw [ih _ _ _ (by omega), State.reg_setReg_ne _ _ _ _ (by intro e; subst e; simp at h)]
    · rfl

end Sys2Proof.Machine
end

