-- ==== Sys2Proof/Laws/Reads.lean ====
section
/-! SUPPORT. For each shared operation one lemma that says once what it can do: admission and reading, how an instruction ends, and the two
single-register loads. -/

namespace Sys2Proof.Machine

/-! Admission and reading. -/

/-- `Readable(a)` is that some region holds the address. -/
theorem isReadable_iff (s : State) (a : Word) :
    isReadable s a = true ↔ ∃ r ∈ s.platform.readable, r.base ≤ a.toNat ∧ a.toNat < r.base + r.size := by
  simp [isReadable, regionHolds]

/-- `check` gives no fault just when the alignment test passes and every byte is readable. -/
theorem check_eq_none (s : State) (a : Word) (n : Nat) :
    check s a n = none ↔
      (s.platform.misalignedOK = true ∨ a.toNat % n = 0) ∧ ∀ i < n, isReadable s (byteAddr a i) = true := by
  unfold check firstUnreadable
  by_cases h : s.platform.misalignedOK = false ∧ a.toNat % n ≠ 0
  · rw [if_pos h]
    simp only [reduceCtorEq, false_iff]
    rintro ⟨h1 | h1, _⟩
    · exact absurd h1 (by simp [h.1])
    · exact h.2 h1
  · rw [if_neg h]
    have h' : s.platform.misalignedOK = true ∨ a.toNat % n = 0 := by
      cases hm : s.platform.misalignedOK
      · exact Or.inr (by by_contra hc; exact h ⟨hm, hc⟩)
      · exact Or.inl rfl
    simp [h']

/-- A read that answers a value met no fault, and the value is the bytes in the byte order of the mode. -/
theorem memRead_eq_ok {s : State} {a : Word} {n : Nat} {v : BitVec (8 * n)} (h : memRead s a n = .ok v) :
    check s a n = none ∧ v = if s.le then memReadLE s.mem a n else memReadBE s.mem a n := by
  unfold memRead at h
  split at h
  · cases h
  · rename_i hc
    injection h with h
    exact ⟨hc, h.symm⟩

/-- A read that answers a fault met it in `check`. -/
theorem memRead_eq_error {s : State} {a : Word} {n : Nat} {f : Fault} (h : memRead s a n = .error f) :
    check s a n = some f := by
  unfold memRead at h
  split at h
  · rename_i hc
    injection h with h
    rw [hc, h]
  · cases h

theorem memRead_of_check_none {s : State} {a : Word} {n : Nat} (h : check s a n = none) :
    memRead s a n = .ok (if s.le then memReadLE s.mem a n else memReadBE s.mem a n) := by
  simp [memRead, h]

theorem memRead_of_check_some {s : State} {a : Word} {n : Nat} {f : Fault} (h : check s a n = some f) :
    memRead s a n = .error f := by
  simp [memRead, h]

/-- A read depends on LE, storage and the platform alone. -/
theorem memRead_congr {s t : State} (hle : s.le = t.le) (hm : s.mem = t.mem) (hp : s.platform = t.platform) (a : Word) (n : Nat) :
    memRead s a n = memRead t a n := by
  simp only [memRead, check, firstUnreadable, isReadable, hle, hm, hp]

/-- Words that were read are as many as were asked for, and each was read at its own address. -/
theorem readWords_eq_ok {s : State} : ∀ {n : Nat} {a : Word} {vs : List (BitVec 32)}, readWords s a n = .ok vs →
    vs.length = n ∧ ∀ k (hk : k < vs.length), memRead s (a + BitVec.ofNat 64 (4 * k)) 4 = .ok vs[k]
  | 0, a, vs, h => by
    cases h
    exact ⟨rfl, fun k hk => absurd hk (Nat.not_lt_zero k)⟩
  | n + 1, a, vs, h => by
    unfold readWords at h
    split at h
    · cases h
    · rename_i v hv
      split at h
      · cases h
      · rename_i ws hws
        injection h with h
        subst h
        obtain ⟨hl, hk⟩ := readWords_eq_ok hws
        refine ⟨by simp [hl], ?_⟩
        intro k hk'
        cases k with
        | zero => simpa using hv
        | succ k =>
          have := hk k (by simpa using hk')
          have ha : a + 4 + BitVec.ofNat 64 (4 * k) = a + BitVec.ofNat 64 (4 * (k + 1)) := by
            rw [Nat.mul_add, Nat.mul_one, BitVec.ofNat_add, BitVec.add_assoc, BitVec.add_comm 4 (BitVec.ofNat 64 (4 * k))]
            rfl
          rw [ha] at this
          simpa using this

/-- Words that were not read met a fault at the first word address that meets one. -/
theorem readWords_eq_error {s : State} {f : Fault} : ∀ {n : Nat} {a : Word}, readWords s a n = .error f →
    ∃ k < n, memRead s (a + BitVec.ofNat 64 (4 * k)) 4 = .error f
  | 0, a, h => by cases h
  | n + 1, a, h => by
    unfold readWords at h
    split at h
    · rename_i g hg
      injection h with h
      subst h
      exact ⟨0, Nat.succ_pos n, by simpa using hg⟩
    · split at h
      · rename_i g hg
        injection h with h
        subst h
        obtain ⟨k, hk, hr⟩ := readWords_eq_error hg
        refine ⟨k + 1, by omega, ?_⟩
        have ha : a + 4 + BitVec.ofNat 64 (4 * k) = a + BitVec.ofNat 64 (4 * (k + 1)) := by
          rw [Nat.mul_add, Nat.mul_one, BitVec.ofNat_add, BitVec.add_assoc, BitVec.add_comm 4 (BitVec.ofNat 64 (4 * k))]
          rfl
        rwa [ha] at hr
      · cases h

/-! How an instruction ends. -/

theorem complete_eq_next {s t : State} (h : complete s = .next t) : t = s.advance := by
  injection h with h
  exact h.symm

@[simp] theorem complete_ne_fault (s : State) (f : Fault) : complete s ≠ .fault f := nofun
@[simp] theorem complete_ne_refused (s : State) (r : Refusal) : complete s ≠ .refused r := nofun
@[simp] theorem raise_ne_next (f : Fault) (t : State) : raise f ≠ .next t := nofun
@[simp] theorem raise_ne_refused (f : Fault) (r : Refusal) : raise f ≠ .refused r := nofun

theorem raise_eq_fault {f g : Fault} (h : raise f = .fault g) : f = g := by
  injection h

/-- What follows a read that answered a next state went on from a value. -/
theorem withRead_eq_next {α : Type} {r : Except Fault α} {k : α → Out} {t : State} (h : withRead r k = .next t) :
    ∃ v, r = .ok v ∧ k v = .next t := by
  cases r with
  | error f => exact absurd h (raise_ne_next f t)
  | ok v => exact ⟨v, rfl, h⟩

/-- What follows a read that answered a fault met it in the read, or went on from a value. -/
theorem withRead_eq_fault {α : Type} {r : Except Fault α} {k : α → Out} {f : Fault} (h : withRead r k = .fault f) :
    r = .error f ∨ ∃ v, r = .ok v ∧ k v = .fault f := by
  cases r with
  | error g => exact Or.inl (by rw [raise_eq_fault h])
  | ok v => exact Or.inr ⟨v, rfl, h⟩

theorem withRead_eq_refused {α : Type} {r : Except Fault α} {k : α → Out} {q : Refusal} (h : withRead r k = .refused q) :
    ∃ v, r = .ok v ∧ k v = .refused q := by
  cases r with
  | error g => exact absurd h (raise_ne_refused g q)
  | ok v => exact ⟨v, rfl, h⟩

/-! The word that a fault records. -/

@[simp] theorem recordWord_next (w : InstrWord) (t : State) : recordWord w (.next t) = .next t := rfl
@[simp] theorem recordWord_fault (w : InstrWord) (f : Fault) : recordWord w (.fault f) = .fault (faultAtWord w f) := rfl
@[simp] theorem recordWord_refused (w : InstrWord) (r : Refusal) : recordWord w (.refused r) = .refused r := rfl

/-- Recording the word leaves a next state as it is, and makes none. -/
@[simp] theorem recordWord_eq_next {w : InstrWord} {o : Out} {t : State} : recordWord w o = .next t ↔ o = .next t := by
  cases o <;> simp

@[simp] theorem recordWord_eq_refused {w : InstrWord} {o : Out} {r : Refusal} : recordWord w o = .refused r ↔ o = .refused r := by
  cases o <;> simp

/-- A fault whose word is recorded was a fault before, of the same kind. -/
theorem recordWord_eq_fault {w : InstrWord} {o : Out} {f : Fault} : recordWord w o = .fault f ↔ ∃ g, o = .fault g ∧ faultAtWord w g = f := by
  cases o <;> simp

/-! The two single-register loads. -/

/-- A load that completes read a value, and its next state is the state before with RT written and `pc` advanced. -/
theorem load_eq_next {n : Nat} {widen : BitVec (8 * n) → Word} {rt : RegNum} {ea : Word} {s t : State}
    (h : load n widen rt ea s = .next t) : ∃ v, memRead s ea n = .ok v ∧ t = (s.setReg rt (widen v)).advance := by
  obtain ⟨v, hv, hk⟩ := withRead_eq_next h
  exact ⟨v, hv, complete_eq_next hk⟩

theorem load_eq_fault {n : Nat} {widen : BitVec (8 * n) → Word} {rt : RegNum} {ea : Word} {s : State} {f : Fault}
    (h : load n widen rt ea s = .fault f) : memRead s ea n = .error f := by
  rcases withRead_eq_fault h with h | ⟨v, _, h⟩
  · exact h
  · exact absurd h (complete_ne_fault _ _)

theorem load_ne_refused {n : Nat} {widen : BitVec (8 * n) → Word} {rt : RegNum} {ea : Word} {s : State} {q : Refusal} :
    load n widen rt ea s ≠ .refused q := by
  intro h
  obtain ⟨v, _, hk⟩ := withRead_eq_refused h
  exact complete_ne_refused _ _ hk

/-- An update load that completes is a valid form, read a value, and wrote RT and then RA. -/
theorem loadUpdate_eq_next {w : InstrWord} {n : Nat} {widen : BitVec (8 * n) → Word} {rt ra : RegNum} {ea : Word} {s t : State}
    (h : loadUpdate w n widen rt ra ea s = .next t) :
    ra ≠ 0 ∧ ra ≠ rt ∧ ∃ v, memRead s ea n = .ok v ∧ t = ((s.setReg rt (widen v)).setReg ra ea).advance := by
  unfold loadUpdate at h
  split at h
  · exact absurd h (raise_ne_next _ _)
  · rename_i hf
    obtain ⟨v, hv, hk⟩ := withRead_eq_next h
    exact ⟨fun e => hf (Or.inl e), fun e => hf (Or.inr e), v, hv, complete_eq_next hk⟩

theorem loadUpdate_eq_fault {w : InstrWord} {n : Nat} {widen : BitVec (8 * n) → Word} {rt ra : RegNum} {ea : Word} {s : State}
    {f : Fault} (h : loadUpdate w n widen rt ra ea s = .fault f) :
    ((ra = 0 ∨ ra = rt) ∧ f = .invalidForm w) ∨ (ra ≠ 0 ∧ ra ≠ rt ∧ memRead s ea n = .error f) := by
  unfold loadUpdate at h
  split at h
  · rename_i hf
    exact Or.inl ⟨hf, (raise_eq_fault h).symm⟩
  · rename_i hf
    rcases withRead_eq_fault h with h | ⟨v, _, h⟩
    · exact Or.inr ⟨fun e => hf (Or.inl e), fun e => hf (Or.inr e), h⟩
    · exact absurd h (complete_ne_fault _ _)

theorem loadUpdate_ne_refused {w : InstrWord} {n : Nat} {widen : BitVec (8 * n) → Word} {rt ra : RegNum} {ea : Word} {s : State}
    {q : Refusal} : loadUpdate w n widen rt ra ea s ≠ .refused q := by
  intro h
  unfold loadUpdate at h
  split at h
  · exact raise_ne_refused _ _ h
  · obtain ⟨v, _, hk⟩ := withRead_eq_refused h
    exact complete_ne_refused _ _ hk

end Sys2Proof.Machine
end

