-- ==== Sys2Proof/Laws/Step.lean ====
section
/-! SUPPORT. What a step can do, said once. -/

namespace Sys2Proof.Machine

/-- A step that answers a next state was not at `EndAddr`, fetched a word, decoded it by the configured table, and executed it. -/
theorem step_eq_next {s t : State} (h : step s = .next t) :
    s.pc ≠ s.platform.endAddr ∧ ∃ w i, fetch s = .ok w ∧ decodeBy s.platform.decodeTable w = .ok i ∧ exec i s = .next t := by
  unfold step at h
  split at h
  · cases h
  · rename_i hp
    obtain ⟨w, hw, hk⟩ := withRead_eq_next h
    split at hk
    · rename_i i hi
      exact ⟨hp, w, i, hw, hi, recordWord_eq_next.1 hk⟩
    · exact absurd hk (raise_ne_next _ _)

/-- The start state holds its parameters. -/
@[simp] theorem State.start_x (x : Vector Word 32) (e : Word) (l : Bool) (m : Memory) (p : Config.Platform) :
    (State.start x e l m p).x = x := rfl
@[simp] theorem State.start_pc (x : Vector Word 32) (e : Word) (l : Bool) (m : Memory) (p : Config.Platform) :
    (State.start x e l m p).pc = e := rfl
@[simp] theorem State.start_le (x : Vector Word 32) (e : Word) (l : Bool) (m : Memory) (p : Config.Platform) :
    (State.start x e l m p).le = l := rfl
@[simp] theorem State.start_mem (x : Vector Word 32) (e : Word) (l : Bool) (m : Memory) (p : Config.Platform) :
    (State.start x e l m p).mem = m := rfl
@[simp] theorem State.start_platform (x : Vector Word 32) (e : Word) (l : Bool) (m : Memory) (p : Config.Platform) :
    (State.start x e l m p).platform = p := rfl

/-- Storage has its canonical form at reset. -/
theorem State.reset_mem_wf : Memory.wf State.reset.mem = true := rfl

/-- Placing a word for the next fetch keeps the canonical form of storage. -/
theorem State.withFetchWord_wf (s : State) (nbits w : Nat) (h : Memory.wf s.mem = true) :
    Memory.wf (s.withFetchWord nbits w).mem = true :=
  memWrite_wf s s.pc 4 _ h

end Sys2Proof.Machine
end

