-- ==== Sys2Proof/Machine/Flags.lean ====
section
/-! DEFINITION. Flag computations: there are none. No instruction of the table reads or writes a flag, a condition code or a predicate: the
source says "Special Registers Altered: None" under each of the 28 (10_state.md R37, 47_common_semantics.md R184). State holds no flag, and
this file, whose place is kept by the layout of the package, holds no definition. -/
end

