-- ==== Sys2Proof/Tests/Slice0.lean ====
section
/-! SUPPORT. Tests: the smoke test of WellFormed, the words of the spec decoded, one-step tests, and for each statement with hypotheses a witness
that meets them. Expected results are those of 95_test_vectors.md, whose labels stand in the comments; the spec computes them from its rules. -/

namespace Sys2Proof.Tests

open Sys2Proof Sys2Proof.Machine Sys2Proof.Safety

/-! WellFormed refuses an ill-formed term of each kind (30_encoding.md R100). -/

theorem test_wf_update_base_zero : (Instr.lbzu 3 0 8).wf = false := by decide
theorem test_wf_update_base_is_target : (Instr.ldux 4 4 5).wf = false := by decide
theorem test_wf_quad_odd : (Instr.lq 5 4 0).wf = false := by decide
theorem test_wf_quad_base_is_target : (Instr.lq 4 4 0).wf = false := by decide
theorem test_wf_multiple_base_is_target : (Instr.lmw 29 29 0).wf = false := by decide
theorem test_wf_multiple_base_in_range : (Instr.lmw 29 31 0).wf = false := by decide
theorem test_wf_valid_forms : (Instr.lbz 4 4 0).wf = true ∧ (Instr.lbzux 3 4 3).wf = true ∧ (Instr.lq 4 5 0).wf = true ∧
    (Instr.lmw 1 0 0).wf = true := by decide

/-! Every constructor's word, written from the spec, decodes to it (95_test_vectors.md sections 3 and 4). -/

theorem test_decode_lbz : decode 0x88640001 = .ok (.lbz 3 4 1) := by rfl
theorem test_decode_lbzx : decode 0x7C6428AE = .ok (.lbzx 3 4 5) := by rfl
theorem test_decode_lbzu : decode 0x8C640008 = .ok (.lbzu 3 4 8) := by rfl
theorem test_decode_lbzux : decode 0x7C6428EE = .ok (.lbzux 3 4 5) := by rfl
theorem test_decode_lhz : decode 0xA0640001 = .ok (.lhz 3 4 1) := by rfl
theorem test_decode_lhzx : decode 0x7C642A2E = .ok (.lhzx 3 4 5) := by rfl
theorem test_decode_lhzu : decode 0xA4640002 = .ok (.lhzu 3 4 2) := by rfl
theorem test_decode_lhzux : decode 0x7C642A6E = .ok (.lhzux 3 4 5) := by rfl
theorem test_decode_lha : decode 0xA864000E = .ok (.lha 3 4 14) := by rfl
theorem test_decode_lhax : decode 0x7C642AAE = .ok (.lhax 3 4 5) := by rfl
theorem test_decode_lhau : decode 0xAC64FFFE = .ok (.lhau 3 4 0xFFFE) := by rfl
theorem test_decode_lhaux : decode 0x7C642AEE = .ok (.lhaux 3 4 5) := by rfl
theorem test_decode_lwz : decode 0x80640003 = .ok (.lwz 3 4 3) := by rfl
theorem test_decode_lwzx : decode 0x7C64282E = .ok (.lwzx 3 4 5) := by rfl
theorem test_decode_lwzu : decode 0x84640004 = .ok (.lwzu 3 4 4) := by rfl
theorem test_decode_lwzux : decode 0x7C64286E = .ok (.lwzux 3 4 5) := by rfl
theorem test_decode_lwa : decode 0xE8640012 = .ok (.lwa 3 4 4) := by rfl
theorem test_decode_lwax : decode 0x7C642AAA = .ok (.lwax 3 4 5) := by rfl
theorem test_decode_lwaux : decode 0x7C642AEA = .ok (.lwaux 3 4 5) := by rfl
theorem test_decode_ld : decode 0xE864FFF8 = .ok (.ld 3 4 0x3FFE) := by rfl
theorem test_decode_ldx : decode 0x7C64282A = .ok (.ldx 3 4 5) := by rfl
theorem test_decode_ldu : decode 0xE8640009 = .ok (.ldu 3 4 2) := by rfl
theorem test_decode_ldux : decode 0x7C64286A = .ok (.ldux 3 4 5) := by rfl
theorem test_decode_lq : decode 0xE0C40010 = .ok (.lq 6 4 1) := by rfl
theorem test_decode_lhbrx : decode 0x7C642E2C = .ok (.lhbrx 3 4 5) := by rfl
theorem test_decode_lwbrx : decode 0x7C642C2C = .ok (.lwbrx 3 4 5) := by rfl
theorem test_decode_ldbrx : decode 0x7C642C28 = .ok (.ldbrx 3 4 5) := by rfl
theorem test_decode_lmw : decode 0xBBDDFFFC = .ok (.lmw 30 29 0xFFFC) := by rfl
theorem test_decode_bytes_of_both_modes :
    decodeBytes false [0xE8, 0x64, 0x00, 0x09] = .ok (.ldu 3 4 2, []) ∧ decodeBytes true [0x09, 0x00, 0x64, 0xE8] = .ok (.ldu 3 4 2, []) := by
  decide
theorem test_decode_no_row : decode 0xE8640003 = .error (.noRow 0xE8640003) ∧ decode 0xE0C40001 = .error (.noRow 0xE0C40001) ∧
    decode 0x7C6428AC = .error (.noRow 0x7C6428AC) ∧ decode 0xFFFFFFFF = .error (.noRow 0xFFFFFFFF) := by decide
theorem test_table_word : decodeTableWord 32 0x7FFFFAEA = some (.lwaux 31 31 31) := by decide

/-! One step. The test image of 95_test_vectors.md section 2 at 0x1000, the instruction placed at 0x2000. -/

/-- The 32 bytes of the test image. -/
def imageBytes : List Byte :=
  [0x81, 0x02, 0x83, 0x04, 0x85, 0x06, 0x87, 0x08, 0xF9, 0x0A, 0xFB, 0x0C, 0xFD, 0x0E, 0xFF, 0x10,
   0x11, 0x22, 0x33, 0x44, 0x55, 0x66, 0x77, 0x88, 0x99, 0xAA, 0xBB, 0xCC, 0xDD, 0xEE, 0xFF, 0x00]

/-- The image, with only its bytes readable and the given registers set. -/
def image (le misalignedOK : Bool) (regs : List (RegNum × Word)) : State :=
  regs.foldl (fun s p => s.setReg p.1 p.2)
    (State.start (Vector.replicate 32 0) 0x2000 le (Memory.writeBytes [] 0x1000 imageBytes)
      { misalignedOK := misalignedOK, readable := [⟨0x1000, 32⟩], endAddr := 0x2010,
        decodeTable := decodeTable })

/-- The image with a word placed for the next step. -/
def placed (le : Bool) (regs : List (RegNum × Word)) (w : InstrWord) : State :=
  (image le true regs).withFetchWord 32 w.toNat

/-- Registers of the next state, if there is one. -/
def regsAfter (rs : List RegNum) : Out → Option (List Word)
  | .next t => some (rs.map t.reg)
  | _ => none

/-- The fault, if there is one. -/
def faultOf : Out → Option Fault
  | .fault f => some f
  | _ => none

/-- `pc` of the next state, if there is one. -/
def pcAfter : Out → Option Word
  | .next t => some t.pc
  | _ => none

/-- B4. -/
theorem test_lbz_be :
    regsAfter [4] (step (placed false [(4, 0x1000)] 0x88840000)) = some [0x81] := by
  decide
/-- A8. -/
theorem test_lbz_le :
    regsAfter [3] (step (placed true [(4, 0xFFFFFFFFFFFF901F)] 0x88647FFF)) = some [0xFF] := by
  decide
/-- S2. -/
theorem test_lbzx_be :
    regsAfter [3] (step (placed false [(0, 0x1008)] 0x7C6000AE)) = some [0xF9] := by
  decide
/-- B8. -/
theorem test_lbzx_le :
    regsAfter [3] (step (placed true [(4, 0xFFFFFFFFFFFFFFFF), (5, 0x1001)] 0x7C6428AE)) = some [0x81] := by
  decide
/-- B9. -/
theorem test_lbzu_be :
    regsAfter [3, 4] (step (placed false [(4, 0x1000)] 0x8C640008)) = some [0xF9, 0x1008] := by
  decide
/-- B11. -/
theorem test_lbzu_le :
    faultOf (step (placed true [(4, 0x1000)] 0x8C840008)) = some (.invalidForm 0x8C840008) := by
  decide
/-- B13. -/
theorem test_lbzux_be :
    regsAfter [3, 4] (step (placed false [(3, 2), (4, 0x1000)] 0x7C6418EE)) = some [0x83, 0x1002] := by
  decide
/-- B15. -/
theorem test_lbzux_le :
    faultOf (step (placed true [(5, 0x1000)] 0x7C6028EE)) = some (.invalidForm 0x7C6028EE) := by
  decide
/-- H1. -/
theorem test_lhz_be :
    regsAfter [3] (step (placed false [(4, 0x1000)] 0xA0640000)) = some [0x8102] := by
  decide
/-- H2. -/
theorem test_lhz_le :
    regsAfter [3] (step (placed true [(4, 0x1000)] 0xA0640001)) = some [0x8302] := by
  decide
/-- H3. -/
theorem test_lhzx_be :
    regsAfter [3] (step (placed false [(4, 0x1000), (5, 8)] 0x7C642A2E)) = some [0xF90A] := by
  decide
/-- H3. -/
theorem test_lhzx_le :
    regsAfter [3] (step (placed true [(4, 0x1000), (5, 8)] 0x7C642A2E)) = some [0xAF9] := by
  decide
/-- H4. -/
theorem test_lhzu_le :
    regsAfter [3, 4] (step (placed true [(4, 0x1000)] 0xA4640002)) = some [0x483, 0x1002] := by
  decide
/-- H5. -/
theorem test_lhzu_be :
    faultOf (step (placed false [] 0xA4600002)) = some (.invalidForm 0xA4600002) := by
  decide
/-- H6. -/
theorem test_lhzux_le :
    regsAfter [3, 4] (step (placed true [(4, 0x1000), (5, 6)] 0x7C642A6E)) = some [0x887, 0x1006] := by
  decide
/-- H7. -/
theorem test_lhzux_be :
    faultOf (step (placed false [(4, 0x1000), (5, 6)] 0x7CA5226E)) = some (.invalidForm 0x7CA5226E) := by
  decide
/-- H8. -/
theorem test_lha_be :
    regsAfter [3] (step (placed false [(4, 0x1000)] 0xA8640000)) = some [0xFFFFFFFFFFFF8102] := by
  decide
/-- H9. -/
theorem test_lha_le :
    regsAfter [3] (step (placed true [(4, 0x1000)] 0xA8640001)) = some [0xFFFFFFFFFFFF8302] := by
  decide
/-- H12. -/
theorem test_lhax_be :
    regsAfter [3] (step (placed false [(4, 0x1000), (5, 8)] 0x7C642AAE)) = some [0xFFFFFFFFFFFFF90A] := by
  decide
/-- H12. -/
theorem test_lhax_le :
    regsAfter [3] (step (placed true [(4, 0x1000), (5, 8)] 0x7C642AAE)) = some [0xAF9] := by
  decide
/-- H13. -/
theorem test_lhau_be :
    regsAfter [3, 4] (step (placed false [(4, 0x100A)] 0xAC64FFFE)) = some [0xFFFFFFFFFFFFF90A, 0x1008] := by
  decide
/-- H14. -/
theorem test_lhau_le :
    faultOf (step (placed true [(3, 0x1000)] 0xAC630000)) = some (.invalidForm 0xAC630000) := by
  decide
/-- S8. -/
theorem test_lhaux_be :
    regsAfter [4, 5] (step (placed false [(4, 0x1000), (5, 8)] 0x7CA42AEE)) = some [0x1008, 0xFFFFFFFFFFFFF90A] := by
  decide
/-- H16. -/
theorem test_lhaux_le :
    faultOf (step (placed true [(5, 0x1000)] 0x7C602AEE)) = some (.invalidForm 0x7C602AEE) := by
  decide
/-- W1. -/
theorem test_lwz_be :
    regsAfter [3] (step (placed false [(4, 0x1000)] 0x80640000)) = some [0x81028304] := by
  decide
/-- W2. -/
theorem test_lwz_le :
    regsAfter [3] (step (placed true [(4, 0x1000)] 0x80640003)) = some [0x87068504] := by
  decide
/-- W4. -/
theorem test_lwzx_be :
    regsAfter [3] (step (placed false [(3, 0x808)] 0x7C63182E)) = some [0x11223344] := by
  decide
/-- S6. -/
theorem test_lwzx_le :
    regsAfter [5] (step (placed true [(4, 0x1000), (5, 0x10)] 0x7CA4282E)) = some [0x44332211] := by
  decide
/-- W5. -/
theorem test_lwzu_le :
    regsAfter [3, 4] (step (placed true [(4, 0x1004)] 0x84640004)) = some [0xCFB0AF9, 0x1008] := by
  decide
/-- W6. -/
theorem test_lwzu_be :
    faultOf (step (placed false [] 0x84600004)) = some (.invalidForm 0x84600004) := by
  decide
/-- S5. -/
theorem test_lwzux_be :
    regsAfter [3, 4] (step (placed false [(4, 0x808)] 0x7C64206E)) = some [0x11223344, 0x1010] := by
  decide
/-- W8. -/
theorem test_lwzux_le :
    faultOf (step (placed true [(4, 0x1000), (5, 0x18)] 0x7C84286E)) = some (.invalidForm 0x7C84286E) := by
  decide
/-- W12. -/
theorem test_lwa_be :
    regsAfter [3] (step (placed false [(4, 0x1004)] 0xE864FFFE)) = some [0xFFFFFFFF81028304] := by
  decide
/-- W11. -/
theorem test_lwa_le :
    regsAfter [3] (step (placed true [(4, 0xFFD)] 0xE8640006)) = some [0xFFFFFFFF85048302] := by
  decide
/-- W13. -/
theorem test_lwax_be :
    regsAfter [3] (step (placed false [(4, 0x1000), (5, 8)] 0x7C642AAA)) = some [0xFFFFFFFFF90AFB0C] := by
  decide
/-- W13. -/
theorem test_lwax_le :
    regsAfter [3] (step (placed true [(4, 0x1000), (5, 8)] 0x7C642AAA)) = some [0xCFB0AF9] := by
  decide
/-- W14. -/
theorem test_lwaux_le :
    regsAfter [3, 4] (step (placed true [(4, 0x1000), (5, 0x10)] 0x7C642AEA)) = some [0x44332211, 0x1010] := by
  decide
/-- W15. -/
theorem test_lwaux_be :
    faultOf (step (placed false [(3, 0x1000), (5, 0x10)] 0x7C632AEA)) = some (.invalidForm 0x7C632AEA) := by
  decide
/-- DW2. -/
theorem test_ld_be :
    regsAfter [3] (step (placed false [(4, 0x1010)] 0xE864FFF8)) = some [0xF90AFB0CFD0EFF10] := by
  decide
/-- DW4. -/
theorem test_ld_le :
    regsAfter [4] (step (placed true [(4, 0x1000)] 0xE8840008)) = some [0x10FF0EFD0CFB0AF9] := by
  decide
/-- DW6. -/
theorem test_ldx_be :
    regsAfter [3] (step (placed false [(5, 0x1018)] 0x7C60282A)) = some [0x99AABBCCDDEEFF00] := by
  decide
/-- S4. -/
theorem test_ldx_le :
    regsAfter [3] (step (placed true [(4, 0x808)] 0x7C64202A)) = some [0x8877665544332211] := by
  decide
/-- DW7. -/
theorem test_ldu_le :
    regsAfter [3, 4] (step (placed true [(4, 0x1000)] 0xE8640009)) = some [0x10FF0EFD0CFB0AF9, 0x1008] := by
  decide
/-- DW9. -/
theorem test_ldu_be :
    faultOf (step (placed false [(4, 0x1000)] 0xE8840009)) = some (.invalidForm 0xE8840009) := by
  decide
/-- DW10. -/
theorem test_ldux_be :
    regsAfter [3, 4] (step (placed false [(4, 0x1000), (5, 0x18)] 0x7C64286A)) = some [0x99AABBCCDDEEFF00, 0x1018] := by
  decide
/-- DW12. -/
theorem test_ldux_le :
    faultOf (step (placed true [(5, 0x1000)] 0x7C60286A)) = some (.invalidForm 0x7C60286A) := by
  decide
/-- Q5. -/
theorem test_lq_be :
    regsAfter [4, 5] (step (placed false [(5, 0x1000)] 0xE0850000)) = some [0x8102830485068708, 0xF90AFB0CFD0EFF10] := by
  decide
/-- Q8. -/
theorem test_lq_le :
    regsAfter [6, 7] (step (placed true [(4, 0x1008)] 0xE0C40000)) = some [0x8877665544332211, 0x10FF0EFD0CFB0AF9] := by
  decide
/-- BR2. -/
theorem test_lhbrx_be :
    regsAfter [3] (step (placed false [(4, 0x1000), (5, 0xE)] 0x7C642E2C)) = some [0x10FF] := by
  decide
/-- BR1. -/
theorem test_lhbrx_le :
    regsAfter [3] (step (placed true [(4, 0x1000)] 0x7C642E2C)) = some [0x8102] := by
  decide
/-- BR3. -/
theorem test_lwbrx_be :
    regsAfter [3] (step (placed false [(4, 0x1000)] 0x7C642C2C)) = some [0x4830281] := by
  decide
/-- BR4. -/
theorem test_lwbrx_le :
    regsAfter [3] (step (placed true [(4, 0x1000), (5, 8)] 0x7C642C2C)) = some [0xF90AFB0C] := by
  decide
/-- BR6. -/
theorem test_ldbrx_be :
    regsAfter [3] (step (placed false [(5, 0x1010)] 0x7C602C28)) = some [0x8877665544332211] := by
  decide
/-- BR7. -/
theorem test_ldbrx_le :
    regsAfter [3] (step (placed true [(4, 0x1000), (5, 3)] 0x7C642C28)) = some [0x485068708F90AFB] := by
  decide
/-- M3. -/
theorem test_lmw_be :
    regsAfter [29, 30, 31] (step (placed false [(29, 0x1008)] 0xBBDDFFFC)) = some [0x1008, 0x85068708, 0xF90AFB0C] := by
  decide
/-- M1. -/
theorem test_lmw_le :
    faultOf (step (placed true [(4, 0x1000)] 0xBBA40000)) = some (.alignment (.word 0xBBA40000)) := by
  decide

/-- Section 3.9: the misaligned rows raise `Alignment(EA)` when `MisalignedOK` is false. -/
theorem test_misaligned : faultOf (exec (.lhz 3 4 1) (image false false [(4, 0x1000)])) = some (.alignment (.addr 0x1001)) := by decide
/-- M9: the ninth word is not readable. -/
theorem test_storage_fault : faultOf (exec (.lmw 1 0 0x1000) (image false true [])) = some (.storageFault 0x1020) := by decide
/-- Q12: RTp = RA is tested before RTp odd. -/
theorem test_quad_order : faultOf (exec (.lq 5 5 0) (image false true [(5, 0x1000)])) = some (.illegalInstruction 0xE0A50000) := by decide
/-- A completing instruction adds 4 to `pc`. -/
theorem test_pc : pcAfter (step (placed false [(4, 0x1000)] 0x88640001)) = some 0x2004 := by decide
/-- A3: an access past the top of the address space goes on at address 0. -/
theorem test_wrap :
    regsAfter [3] (exec (.lwz 3 0 0xFFFE) { State.reset with mem := Memory.writeBytes [] 0xFFFFFFFFFFFFFFFE [0xA3, 0xA4, 0xB1, 0xB2] }) =
      some [0xA3A4B1B2] := by decide
/-- A row for `lbzu` with another primary opcode and with RT and RA in each other's places. -/
def otherLbzu : Row := ⟨.lbzu, 0xFC000000, 0xFC000000, ⟨16, 21, 0⟩⟩

/-- A decode table with that row in place of the row of `lbzu`. -/
def otherTable : List Row := decodeTable.map fun r => if r.name = .lbzu then otherLbzu else r

/-- The image with a word placed, decoded by the other table. -/
def placedOther (regs : List (RegNum × Word)) (w : InstrWord) : State :=
  { placed false regs w with platform := { (placed false regs w).platform with decodeTable := otherTable } }

/-- The step decodes by the configured table, B9 under the other table. -/
theorem test_other_table : regsAfter [3, 4] (step (placedOther [(4, 0x1000)] 0xFC830008)) = some [0xF9, 0x1008] := by decide
/-- A fault records the fetched word by whatever table it was decoded, and the word of the default table is none of the other. -/
theorem test_other_table_faults : faultOf (step (placedOther [] 0xFC030008)) = some (.invalidForm 0xFC030008) ∧
    faultOf (step (placedOther [(4, 0x1000)] 0x8C640008)) = some (.illegalInstruction 0x8C640008) := by decide
/-- A word placed after reset is the first to run. -/
theorem test_reset_runs_placed_word : regsAfter [4] (step (State.reset.withFetchWord 32 0x80800000)) = some [0x80800000] := by decide
/-- The canonical form: writing what an unlisted address reads as removes the entry. -/
theorem test_write_canonical : Memory.write (Memory.write [] 5 7) 5 0 = [] ∧ Memory.write (Memory.write [] 5 7) 3 1 = [(3, 1), (5, 7)] := by
  decide

/-! Witnesses: for each statement with hypotheses, a concrete state and operands that meet them, every clause on its own and at the boundary values
of its range. -/

/-- The last and the first address outside of the image meet what `LoadsWith` asks, for an access of `n` bytes: admitted up to the last byte of
the image, `StorageFault` one further, `Alignment` where misaligned accesses fault. -/
abbrev BothSides (s : State) (n : Nat) (inside outside : Word) (bad : Word) : Prop :=
  Admitted s inside n ∧ Meets s outside n (.storageFault bad)

theorem witness_EncodeOfDecodeIsTheWord : decode 0xE0C40010 = .ok (.lq 6 4 1) := by rfl
/-- Clauses of every table: a word that no row matches, and one that only a replaced row matches. -/
theorem witness_DecodingSearchesTheConfiguredTable :
    (∀ r ∈ otherTable, (0x8C640008 : InstrWord) &&& r.mask ≠ r.pattern) ∧ otherLbzu ∈ otherTable ∧
    (0xFC830008 : InstrWord) &&& otherLbzu.mask = otherLbzu.pattern ∧
    ∀ q ∈ otherTable, (0xFC830008 : InstrWord) &&& q.mask = q.pattern → q = otherLbzu := by decide
theorem witness_AtMostOneRowMatchesAWord :
    (⟨.lwa, 0xE8000002, 0xFC000003, dsPlaces⟩ : Row) ∈ decodeTable ∧ (0xE864FFFE : InstrWord) &&& 0xFC000003 = 0xE8000002 := by decide
theorem witness_FormatsPlaceTheirFields : (0x88641234 : InstrWord) = dForm 34 3 4 0x1234 ∧ (0xE864FFFE : InstrWord) = dsForm 58 3 4 0x3FFF 2 ∧
    (0xE0C4FFF0 : InstrWord) = dqForm 56 6 4 0xFFF ∧ (0x7C6428AE : InstrWord) = xForm 31 3 4 5 87 := by decide

/-- What the fetch of a placed word answers. -/
def fetched (s : State) : Option InstrWord :=
  match fetch s with
  | .ok w => some w
  | .error _ => none

theorem fetch_of_fetched {s : State} {w : InstrWord} (h : fetched s = some w) : fetch s = .ok w := by
  unfold fetched at h
  split at h
  · rename_i v hv
    injection h with h
    rw [hv, h]
  · cases h

theorem witness_WordsOutsideTheTableAreIllegal :
    (image false true []).pc ≠ (image false true []).platform.endAddr ∧ (placed true [] 0xEC000000).platform.decodeTable = decodeTable ∧
    fetch (placed false [] 0x7BFFFFFF) = .ok 0x7BFFFFFF ∧ (0x7BFFFFFF : InstrWord).extractLsb' 26 6 = 30 ∧
    (∀ r ∈ decodeTable, (0x7BFFFFFF : InstrWord) &&& r.mask ≠ r.pattern) ∧
    fetch (placed true [] 0xEC000000) = .ok 0xEC000000 ∧ (0xEC000000 : InstrWord).extractLsb' 26 6 = 59 ∧
    fetch (placed false [] 0x7C64282C) = .ok 0x7C64282C ∧ (0x7C64282C : InstrWord).extractLsb' 26 6 = 31 ∧
    (0x7C64282C : InstrWord).extractLsb' 1 10 = 22 ∧
    fetch (placed false [] 0xE8640003) = .ok 0xE8640003 ∧ (0xE8640003 : InstrWord).extractLsb' 26 6 = 58 ∧
    (0xE8640003 : InstrWord).extractLsb' 0 2 = 3 :=
  ⟨by decide, rfl, fetch_of_fetched (by decide), by decide, by decide, fetch_of_fetched (by decide), by decide, fetch_of_fetched (by decide),
    by decide, by decide, fetch_of_fetched (by decide), by decide, by decide⟩

theorem witness_ReservedBitsMustBeZero :
    (0x7C6428AF : InstrWord).extractLsb' 26 6 = 31 ∧ (0x7C6428AF : InstrWord).extractLsb' 0 1 ≠ 0 ∧
    (0xE0C40001 : InstrWord).extractLsb' 26 6 = 56 ∧ (0xE0C40001 : InstrWord).extractLsb' 0 4 ≠ 0 ∧
    (0xE0C40008 : InstrWord).extractLsb' 26 6 = 56 ∧ (0xE0C40008 : InstrWord).extractLsb' 0 4 ≠ 0 ∧
    (placed false [] 0xE0C40008).pc ≠ (placed false [] 0xE0C40008).platform.endAddr ∧
    (placed false [] 0xE0C40008).platform.decodeTable = decodeTable ∧ fetch (placed false [] 0xE0C40008) = .ok 0xE0C40008 :=
  ⟨by decide, by decide, by decide, by decide, by decide, by decide, by decide, rfl, fetch_of_fetched (by decide)⟩

theorem every_address_readable_after_reset (a : Word) : Readable State.reset a :=
  ⟨⟨0, Config.addressSpace⟩, List.mem_singleton_self _, Nat.zero_le _, Nat.lt_of_lt_of_eq a.isLt (Nat.zero_add _).symm⟩

theorem witness_MemReadIsCheckedAndFollowsTheMode :
    Admitted (image true true []) 0x101C 4 ∧ Meets (image true true []) 0x101D 4 (.storageFault 0x1020) ∧
    Meets (image true false []) 0x101E 4 (.alignment (.addr 0x101E)) ∧ Admitted (image true false []) 0x101C 4 ∧
    State.reset.platform.misalignedOK = true ∧ ∀ b, Readable State.reset b :=
  ⟨by decide, by decide, by decide, by decide, rfl, every_address_readable_after_reset⟩
theorem witness_FetchReadsTheWordAtPc :
    Admitted (placed false [] 0x88640001) (placed false [] 0x88640001).pc 4 ∧
    Meets (image false true []) (image false true []).pc 4 (.storageFault 0x2000) ∧
    Meets { image false false [] with pc := 0x1002 } 0x1002 4 (.alignment (.addr 0x1002)) := by decide
theorem witness_PlacedWordIsFetched :
    Memory.wf State.reset.mem = true ∧ AlignmentOK State.reset State.reset.pc 4 ∧ State.reset.platform.endAddr ≠ State.reset.pc ∧
    AlignmentOK { image false false [] with pc := 0x2010 } 0x2010 4 ∧ (image false false []).platform.endAddr = 0x2010 ∧
    Memory.wf (image false false []).mem = true ∧ (∀ i < 4, (0x200F : Word) ≠ 0x2010 + BitVec.ofNat 64 i) ∧
    ∀ i < 4, (0x2014 : Word) ≠ 0x2010 + BitVec.ofNat 64 i := by decide
/-- The bytes beside the placed word stay unreadable, and `EndAddr` moves only from `pc`. -/
theorem test_placed_word_opens_its_bytes_only :
    ¬ Readable (placed false [] 0) 0x1FFF ∧ Readable (placed false [] 0) 0x2003 ∧ ¬ Readable (placed false [] 0) 0x2004 ∧
    (placed false [] 0).platform.endAddr = 0x2010 := by decide

theorem witness_LoadByteAndZero :
    BothSides (image false true [(4, 0x1000)]) 1 (raz (image false true [(4, 0x1000)]) 4 + sextD 31)
      (raz (image false true [(4, 0x1000)]) 4 + sextD 32) 0x1020 ∧
    BothSides (image true false [(0, 0x20), (5, 0xFFF)]) 1
      (raz (image true false [(0, 0x20), (5, 0xFFF)]) 5 + (image true false [(0, 0x20), (5, 0xFFF)]).reg 0)
      (raz (image true false [(0, 0x20), (5, 0xFFF)]) 0 + (image true false [(0, 0x20), (5, 0xFFF)]).reg 5) 0xFFF := by decide
theorem witness_LoadByteAndZeroWithUpdate :
    BothSides (image false true [(4, 0x1000)]) 1 ((image false true [(4, 0x1000)]).reg 4 + sextD 31)
      ((image false true [(4, 0x1000)]).reg 4 + sextD 0xFFFF) 0xFFF ∧ (4 : RegNum) ≠ 0 ∧ (4 : RegNum) ≠ 3 ∧
    BothSides (image true true [(4, 0x1000), (5, 31)]) 1
      ((image true true [(4, 0x1000), (5, 31)]).reg 4 + (image true true [(4, 0x1000), (5, 31)]).reg 5)
      ((image true true [(4, 0x1000), (5, 31)]).reg 4 + (image true true [(4, 0x1000), (5, 31)]).reg 4) 0x2000 := by decide
theorem witness_LoadHalfwordAndZero :
    BothSides (image false true [(4, 0x1000)]) 2 (raz (image false true [(4, 0x1000)]) 4 + sextD 30)
      (raz (image false true [(4, 0x1000)]) 4 + sextD 31) 0x1020 ∧
    Meets (image true false [(4, 0x1000), (5, 1)]) (raz (image true false [(4, 0x1000), (5, 1)]) 4 +
      (image true false [(4, 0x1000), (5, 1)]).reg 5) 2 (.alignment (.addr 0x1001)) ∧
    Admitted (image true false [(5, 0x101E)]) (raz (image true false [(5, 0x101E)]) 0 + (image true false [(5, 0x101E)]).reg 5) 2 := by decide
theorem witness_LoadHalfwordAndZeroWithUpdate :
    BothSides (image false true [(4, 0x1000)]) 2 ((image false true [(4, 0x1000)]).reg 4 + sextD 30)
      ((image false true [(4, 0x1000)]).reg 4 + sextD 31) 0x1020 ∧
    Meets (image true false [(4, 0x1000), (5, 1)]) ((image true false [(4, 0x1000), (5, 1)]).reg 4 +
      (image true false [(4, 0x1000), (5, 1)]).reg 5) 2 (.alignment (.addr 0x1001)) ∧
    Admitted (image true false [(4, 0x808)]) ((image true false [(4, 0x808)]).reg 4 + (image true false [(4, 0x808)]).reg 4) 2 := by decide
theorem witness_LoadHalfwordAlgebraic :
    BothSides (image true true [(4, 0x1000)]) 2 (raz (image true true [(4, 0x1000)]) 4 + sextD 30)
      (raz (image true true [(4, 0x1000)]) 4 + sextD 0xFFFE) 0xFFE ∧
    Meets (image false false [(4, 0x1000), (5, 1)]) (raz (image false false [(4, 0x1000), (5, 1)]) 4 +
      (image false false [(4, 0x1000), (5, 1)]).reg 5) 2 (.alignment (.addr 0x1001)) ∧
    Admitted (image false false [(5, 0x1000)]) (raz (image false false [(5, 0x1000)]) 0 + (image false false [(5, 0x1000)]).reg 5) 2 := by
  decide
theorem witness_LoadHalfwordAlgebraicWithUpdate :
    BothSides (image true true [(4, 0x1000)]) 2 ((image true true [(4, 0x1000)]).reg 4 + sextD 30)
      ((image true true [(4, 0x1000)]).reg 4 + sextD 0xFFFE) 0xFFE ∧
    Meets (image false false [(4, 0x1000), (5, 31)]) ((image false false [(4, 0x1000), (5, 31)]).reg 4 +
      (image false false [(4, 0x1000), (5, 31)]).reg 5) 2 (.alignment (.addr 0x101F)) ∧
    Admitted (image false false [(4, 0x1000), (5, 8)]) ((image false false [(4, 0x1000), (5, 8)]).reg 4 +
      (image false false [(4, 0x1000), (5, 8)]).reg 5) 2 := by decide
theorem witness_LoadWordAndZero :
    BothSides (image false true [(4, 0x1000)]) 4 (raz (image false true [(4, 0x1000)]) 4 + sextD 28)
      (raz (image false true [(4, 0x1000)]) 4 + sextD 29) 0x1020 ∧
    Meets (image true false [(4, 0x1000), (5, 2)]) (raz (image true false [(4, 0x1000), (5, 2)]) 4 +
      (image true false [(4, 0x1000), (5, 2)]).reg 5) 4 (.alignment (.addr 0x1002)) ∧
    Admitted (image true false [(5, 0x101C)]) (raz (image true false [(5, 0x101C)]) 0 + (image true false [(5, 0x101C)]).reg 5) 4 := by decide
theorem witness_LoadWordAndZeroWithUpdate :
    BothSides (image false true [(4, 0x1000)]) 4 ((image false true [(4, 0x1000)]).reg 4 + sextD 28)
      ((image false true [(4, 0x1000)]).reg 4 + sextD 29) 0x1020 ∧
    Meets (image true false [(4, 0x1000), (5, 2)]) ((image true false [(4, 0x1000), (5, 2)]).reg 4 +
      (image true false [(4, 0x1000), (5, 2)]).reg 5) 4 (.alignment (.addr 0x1002)) ∧
    Admitted (image true false [(4, 0x808)]) ((image true false [(4, 0x808)]).reg 4 + (image true false [(4, 0x808)]).reg 4) 4 := by decide
theorem witness_LoadWordAlgebraic :
    BothSides (image false true [(4, 0x1000)]) 4 (raz (image false true [(4, 0x1000)]) 4 + sextDS 7)
      (raz (image false true [(4, 0x1000)]) 4 + sextDS 0x3FFF) 0xFFC ∧
    Meets (image true false [(4, 0x1000), (5, 2)]) (raz (image true false [(4, 0x1000), (5, 2)]) 4 +
      (image true false [(4, 0x1000), (5, 2)]).reg 5) 4 (.alignment (.addr 0x1002)) ∧
    Admitted (image true false [(5, 0x101C)]) (raz (image true false [(5, 0x101C)]) 0 + (image true false [(5, 0x101C)]).reg 5) 4 := by decide
theorem witness_LoadWordAlgebraicWithUpdateIndexed :
    BothSides (image false true [(4, 0x1000), (5, 28)]) 4
      ((image false true [(4, 0x1000), (5, 28)]).reg 4 + (image false true [(4, 0x1000), (5, 28)]).reg 5)
      ((image false true [(4, 0x1000), (5, 29)]).reg 4 + (image false true [(4, 0x1000), (5, 29)]).reg 5) 0x1020 ∧
    Meets (image true false [(4, 0x1000), (5, 2)]) ((image true false [(4, 0x1000), (5, 2)]).reg 4 +
      (image true false [(4, 0x1000), (5, 2)]).reg 5) 4 (.alignment (.addr 0x1002)) ∧ (31 : RegNum) ≠ 0 ∧ (31 : RegNum) ≠ 30 := by decide
theorem witness_LoadDoubleword :
    BothSides (image false true [(4, 0x1000)]) 8 (raz (image false true [(4, 0x1000)]) 4 + sextDS 6)
      (raz (image false true [(4, 0x1000)]) 4 + sextDS 7) 0x1020 ∧
    Meets (image true false [(4, 0x1000), (5, 4)]) (raz (image true false [(4, 0x1000), (5, 4)]) 4 +
      (image true false [(4, 0x1000), (5, 4)]).reg 5) 8 (.alignment (.addr 0x1004)) ∧
    Admitted (image true false [(5, 0x1018)]) (raz (image true false [(5, 0x1018)]) 0 + (image true false [(5, 0x1018)]).reg 5) 8 := by decide
theorem witness_LoadDoublewordWithUpdate :
    BothSides (image false true [(4, 0x1000)]) 8 ((image false true [(4, 0x1000)]).reg 4 + sextDS 6)
      ((image false true [(4, 0x1000)]).reg 4 + sextDS 7) 0x1020 ∧
    Meets (image true false [(4, 0x1000), (5, 4)]) ((image true false [(4, 0x1000), (5, 4)]).reg 4 +
      (image true false [(4, 0x1000), (5, 4)]).reg 5) 8 (.alignment (.addr 0x1004)) ∧
    Admitted (image true false [(4, 0x808)]) ((image true false [(4, 0x808)]).reg 4 + (image true false [(4, 0x808)]).reg 4) 8 := by decide
theorem witness_LoadQuadword :
    (6 : RegNum) ≠ 4 ∧ (6 : RegNum).val % 2 = 0 ∧ (31 : RegNum) ≠ 4 ∧ (31 : RegNum).val % 2 = 1 ∧ (30 : RegNum) ≠ 31 ∧ (30 : RegNum).val % 2 = 0 ∧
    BothSides (image false true [(4, 0x1000)]) 16 (raz (image false true [(4, 0x1000)]) 4 + sextDQ 1)
      (raz (image false true [(4, 0x1000)]) 4 + sextDQ 2) 0x1020 ∧ (image false true [(4, 0x1000)]).le = false ∧
    Meets (image true false [(4, 0x1008)]) (raz (image true false [(4, 0x1008)]) 4 + sextDQ 0) 16 (.alignment (.addr 0x1008)) ∧
    Admitted (image true false [(4, 0x1000)]) (raz (image true false [(4, 0x1000)]) 4 + sextDQ 1) 16 ∧
    (image true false [(4, 0x1000)]).le = true := by decide
theorem witness_LoadByteReverseIndexed :
    BothSides (image false true [(4, 0x1000), (5, 24)]) 8
      (raz (image false true [(4, 0x1000), (5, 24)]) 4 + (image false true [(4, 0x1000), (5, 24)]).reg 5)
      (raz (image false true [(4, 0x1000), (5, 25)]) 4 + (image false true [(4, 0x1000), (5, 25)]).reg 5) 0x1020 ∧
    (∀ n ∈ [2, 4, 8], Admitted (image true false [(5, 0x1008)]) (raz (image true false [(5, 0x1008)]) 0 +
      (image true false [(5, 0x1008)]).reg 5) n) ∧
    ∀ n ∈ [2, 4, 8], Meets (image true false [(5, 0x1001)]) (raz (image true false [(5, 0x1001)]) 0 +
      (image true false [(5, 0x1001)]).reg 5) n (.alignment (.addr 0x1001)) := by decide
theorem witness_LoadMultipleWord :
    (29 : RegNum) ≤ 29 ∧ (0 : RegNum) ≤ 0 ∧ (28 : RegNum) < 29 ∧ (0 : RegNum) < 1 ∧
    (image false true [(4, 0x1000)]).le = false ∧ (image true true []).le = true ∧
    (∀ k < 32 - (24 : RegNum).val, Admitted (image false true [(4, 0x1000)])
      (raz (image false true [(4, 0x1000)]) 4 + sextD 0 + BitVec.ofNat 64 (4 * k)) 4) ∧
    (∀ j < 8, Admitted (image false true []) (raz (image false true []) 0 + sextD 0x1000 + BitVec.ofNat 64 (4 * j)) 4) ∧
    Meets (image false true []) (raz (image false true []) 0 + sextD 0x1000 + BitVec.ofNat 64 (4 * 8)) 4 (.storageFault 0x1020) ∧
    8 < 32 - (1 : RegNum).val ∧
    Meets (image false false [(4, 0x1000)]) (raz (image false false [(4, 0x1000)]) 4 + sextD 1 + BitVec.ofNat 64 (4 * 0)) 4
      (.alignment (.addr 0x1001)) := by
  refine ⟨?_, ?_, ?_, ?_, ?_, ?_, ?_, ?_, ?_, ?_, ?_⟩ <;> decide

theorem witness_InvalidFormsFaultAtTheStep :
    (placed false [] 0x8C600008).pc ≠ (placed false [] 0x8C600008).platform.endAddr ∧
    fetch (placed false [] 0x8C600008) = .ok 0x8C600008 ∧ decodeBy (placed false [] 0x8C600008).platform.decodeTable 0x8C600008 = .ok (.lbzu 3 0 8) ∧ (Instr.lbzu 3 0 8).wf = false ∧
    fetch (placed true [] 0xE0A40000) = .ok 0xE0A40000 ∧ decodeBy decodeTable 0xE0A40000 = .ok (.lq 5 4 0) ∧ (Instr.lq 5 4 0).wf = false ∧
    (∀ r dq, Instr.lq 5 4 0 ≠ .lq r r dq) ∧
    fetch (placed true [] 0xB8000000) = .ok 0xB8000000 ∧ decodeBy decodeTable 0xB8000000 = .ok (.lmw 0 0 0) ∧ (Instr.lmw 0 0 0).wf = false ∧
    fetch (placed true [] 0xE0A50000) = .ok 0xE0A50000 ∧ decodeBy decodeTable 0xE0A50000 = .ok (.lq 5 5 0) ∧
    fetch (placedOther [] 0xFC030008) = .ok 0xFC030008 ∧ decodeBy (placedOther [] 0xFC030008).platform.decodeTable 0xFC030008 = .ok (.lbzu 3 0 8) :=
  ⟨by decide, fetch_of_fetched (by decide), by rfl, by decide, fetch_of_fetched (by decide), by rfl, by decide,
    by rintro r dq h; injection h with h1 h2 h3; exact absurd (h1.trans h2.symm) (by decide), fetch_of_fetched (by decide), by rfl, by decide,
    fetch_of_fetched (by decide), by rfl, fetch_of_fetched (by decide), by rfl⟩

theorem witness_FaultsHaveTheirCauses :
    faultOf (exec (.lq 4 4 0) (image false true [])) = some (.illegalInstruction 0xE0840000) ∧
    faultOf (exec (.lmw 29 29 0) (image true true [])) = some (.invalidForm 0xBBBD0000) ∧
    faultOf (exec (.lmw 29 4 0) (image true true [])) = some (.alignment (.word 0xBBA40000)) ∧
    faultOf (exec (.ldx 3 0 4) (image true false [(4, 0x1004)])) = some (.alignment (.addr 0x1004)) ∧
    faultOf (exec (.ldx 3 0 4) (image true true [(4, 0x1019)])) = some (.storageFault 0x1020) := by decide
/-- The causes: an invalid form that is no `lq` with RTp = RA, `lmw` in Little-Endian mode, and a fault at the first, at the only and at a later
access. -/
theorem witness_FaultsHaveTheirCauses_back :
    (Instr.lmw 29 29 0).wf = false ∧ (image true true []).le = true ∧ (Instr.lmw 29 4 0).wf = true ∧ (Instr.lmw 29 4 0).mnemonic = .lmw ∧
    (Instr.ldx 3 0 4).wf = true ∧ (Instr.ldx 3 0 4).mnemonic ≠ .lmw ∧
    accesses (.ldx 3 0 4) (image true false [(4, 0x1004)]) = [] ++ (0x1004, 8) :: [] ∧
    Meets (image true false [(4, 0x1004)]) 0x1004 8 (.alignment (.addr 0x1004)) ∧
    (Instr.lmw 30 0 0x101C).wf = true ∧ (image false true []).le = false ∧
    accesses (.lmw 30 0 0x101C) (image false true []) = [(0x101C, 4)] ++ (0x1020, 4) :: [] ∧
    (∀ p ∈ [((0x101C : Word), 4)], Admitted (image false true []) p.1 p.2) ∧
    Meets (image false true []) 0x1020 4 (.storageFault 0x1020) := by
  refine ⟨?_, ?_, ?_, ?_, ?_, ?_, ?_, ?_, ?_, ?_, ?_, ?_, ?_⟩ <;> decide

theorem witness_ValidFormsCompleteUnderTheDefaults :
    (Instr.lmw 1 0 0).wf = true ∧ State.reset.le = false ∧ (Instr.lq 30 31 0xFFF).wf = true ∧ (Instr.lq 30 31 0xFFF).mnemonic ≠ .lmw ∧
    State.reset.platform.misalignedOK = true ∧ ∀ a, Readable State.reset a :=
  ⟨by decide, rfl, by decide, by decide, rfl, every_address_readable_after_reset⟩

theorem witness_FrameOfEveryInstruction :
    (∃ t, exec (.lbz 4 4 0) (image false true [(4, 0x1000)]) = .next t) ∧ (∃ t, exec (.ldux 3 4 5) (image true true [(4, 0x1000)]) = .next t) ∧
    (∃ t, exec (.lq 4 5 0) (image true true [(5, 0x1000)]) = .next t) ∧ ∃ t, exec (.lmw 24 4 0) (image false true [(4, 0x1000)]) = .next t :=
  ⟨⟨_, rfl⟩, ⟨_, rfl⟩, ⟨_, rfl⟩, ⟨_, rfl⟩⟩

theorem witness_RegistersNotReadDoNotMatter :
    (∀ r ∈ reads (.lbzux 3 4 5), (image true true [(4, 0x1000)]).reg r = (image true true [(4, 0x1000), (3, 7), (0, 9)]).reg r) ∧
    (∃ t, exec (.lbzux 3 4 5) (image true true [(4, 0x1000)]) = .next t) ∧
    (∀ r ∈ reads (.lbzx 3 0 5), (image true true [(5, 0xFFF)]).reg r = (image true true [(5, 0xFFF), (0, 1)]).reg r) ∧
    exec (.lbzx 3 0 5) (image true true [(5, 0xFFF)]) = .fault (.storageFault 0xFFF) ∧
    (image true true [(5, 0xFFF)]).mem = (image true true [(5, 0xFFF), (0, 1)]).mem :=
  ⟨by decide, ⟨_, rfl⟩, by decide, rfl, rfl⟩

theorem witness_SingleRegisterLoadsFollowTheScheme :
    shapeOf (.lhbrx 3 4 5) = some ⟨2, .zero, false, true, 3, 4, .index 5⟩ := rfl

theorem witness_UpdateFormsAddTheBaseWrite :
    (31 : RegNum) ≠ 0 ∧ (4 : RegNum) ≠ 0 ∧ (4 : RegNum) ≠ 3 ∧ (∃ t, exec (.ldx 0 31 5) (image true true [(31, 0x1000)]) = .next t) ∧
    exec (.lbz 3 4 0) (image true true [(4, 0x1020)]) = .fault (.storageFault 0x1020) :=
  ⟨by decide, by decide, by decide, ⟨_, rfl⟩, rfl⟩

theorem witness_IndexedFormsAgreeWithDisplacementForms :
    (image true true [(5, 0xFFFFFFFFFFFF8000)]).reg 5 = sextD 0x8000 ∧ (image true true [(5, 0x7FFF)]).reg 5 = sextD 0x7FFF ∧
    (image true true [(5, 0xFFFFFFFFFFFF8000)]).reg 5 = sextDS 0x2000 ∧ (image true true [(5, 0x7FFC)]).reg 5 = sextDS 0x1FFF ∧
    (4 : RegNum) ≠ 0 ∧ (4 : RegNum) ≠ 3 := by decide

theorem witness_QuadwordIsTwoDoublewords :
    (∃ t t0 t8, exec (.lq 6 4 1) (image false true [(4, 0x1000)]) = .next t ∧
      exec (.ld 6 4 ((1 : BitVec 12) ++ 0#2)) (image false true [(4, 0x1000)]) = .next t0 ∧
      exec (.ld 6 4 ((1 : BitVec 12) ++ 2#2)) (image false true [(4, 0x1000)]) = .next t8) ∧
    ∃ t t0 t8, exec (.lq 30 31 0xFFF) (image true true [(31, 0x1010)]) = .next t ∧
      exec (.ld 30 31 ((0xFFF : BitVec 12) ++ 0#2)) (image true true [(31, 0x1010)]) = .next t0 ∧
      exec (.ld 30 31 ((0xFFF : BitVec 12) ++ 2#2)) (image true true [(31, 0x1010)]) = .next t8 :=
  ⟨⟨_, _, _, rfl, rfl, rfl⟩, _, _, _, rfl, rfl, rfl⟩

theorem witness_MultipleIsWordsOneByOne :
    ∃ t v, exec (.lmw 24 4 0) (image false true [(4, 0x1000)]) = .next t ∧ (24 : RegNum) ≤ 31 ∧
      exec (.lwzx 31 0 7) ((image false true [(4, 0x1000)]).setReg 7
        (raz (image false true [(4, 0x1000)]) 4 + sextD 0 + BitVec.ofNat 64 (4 * ((31 : RegNum).val - (24 : RegNum).val)))) = .next v :=
  ⟨_, _, rfl, by decide, rfl⟩

theorem witness_StepRunsTheDecodedInstruction :
    (placed true [(4, 0x1000)] 0x88640001).pc ≠ (placed true [(4, 0x1000)] 0x88640001).platform.endAddr ∧
    Admitted (placed true [(4, 0x1000)] 0x88640001) (placed true [(4, 0x1000)] 0x88640001).pc 4 ∧
    word (placed true [(4, 0x1000)] 0x88640001).le (placed true [(4, 0x1000)] 0x88640001).mem (placed true [(4, 0x1000)] 0x88640001).pc = 0x88640001 ∧
    decodeBy (placed true [(4, 0x1000)] 0x88640001).platform.decodeTable 0x88640001 = .ok (.lbz 3 4 1) ∧
    (∃ t, exec (.lbz 3 4 1) (placed true [(4, 0x1000)] 0x88640001) = .next t) ∧
    (placed true [(4, 0x1000)] 0x88640001).platform.decodeTable = decodeTable :=
  ⟨by decide, by decide, by decide, by rfl, ⟨_, rfl⟩, rfl⟩

theorem witness_StepStopsWhereItCannotRun :
    { image false true [] with pc := 0x2010 }.pc = (image false true []).platform.endAddr ∧
    (image false true []).pc ≠ (image false true []).platform.endAddr ∧ Meets (image false true []) (image false true []).pc 4 (.storageFault 0x2000) ∧
    Admitted (placed false [] 0x60000000) (placed false [] 0x60000000).pc 4 ∧
    word false (placed false [] 0x60000000).mem (placed false [] 0x60000000).pc = 0x60000000 ∧
    decodeBy (placed false [] 0x60000000).platform.decodeTable 0x60000000 = .error (.noRow 0x60000000) :=
  ⟨by decide, by decide, by decide, by decide, by decide, by rfl⟩

theorem witness_EveryStepKeepsTheInvariant :
    Inv (placed true [(4, 0x1000)] 0x88640001) ∧ ∃ t, step (placed true [(4, 0x1000)] 0x88640001) = .next t :=
  ⟨⟨by unfold PcAligned; decide, by decide⟩, ⟨_, rfl⟩⟩

theorem witness_StartStatesHaveTheInvariant :
    (0xFFFFFFFFFFFFFFFC : Word).toNat % 4 = 0 ∧ (Config.resetPlatform decodeTable).endAddr.toNat % 4 = 0 ∧
    Memory.wf (Memory.writeBytes [] 0x1000 imageBytes) = true := by decide

theorem witness_RunsNeverChangeStorage :
    ∃ t, Sys2Proof.core.run 1 (placed false [(4, 0x1000)] 0x88640001) = .next t := ⟨_, rfl⟩

theorem witness_RunEndsOnSchedule :
    PcAligned (image false true []) ∧ stepsToEnd (image false true []) = 4 ∧ 3 < stepsToEnd (image false true []) := by
  unfold PcAligned; decide

end Sys2Proof.Tests
end

section
/-! PROOFS. The scope of the model (00_scope.md): decoding by the configured table, the two outcomes of an instruction, and the platform at
reset. -/

namespace Sys2Proof

/-- A row is selected just when the word agrees with the row's pattern under its mask (30_encoding.md R95). -/
@[simp] theorem Row.selects_iff {r : Row} {w : InstrWord} : r.selects w = true ↔ w &&& r.mask = r.pattern :=
  beq_iff_eq

/-- The instruction read from a row carries the row's mnemonic, whatever the operands and wherever they stand. -/
@[simp] theorem instrOfRow_mnemonic (r : Row) (w : InstrWord) : (instrOfRow r w).mnemonic = r.name := by
  obtain ⟨name, pattern, mask, fields⟩ := r
  cases name <;> rfl

/-- All that decoding by a table can do: read the instruction of a row that the word matches, or, where it matches none, reject it. -/
theorem decodeBy_cases (table : List Row) (w : InstrWord) :
    (∃ r ∈ table, w &&& r.mask = r.pattern ∧ decodeBy table w = .ok (instrOfRow r w)) ∨
    ((∀ r ∈ table, w &&& r.mask ≠ r.pattern) ∧ decodeBy table w = .error (.noRow w)) := by
  cases hfind : table.find? (fun r => r.selects w) with
  | some r =>
    have hsel : r.selects w = true := List.find?_some (p := (Row.selects · w)) hfind
    exact .inl ⟨r, List.mem_of_find?_eq_some hfind, Row.selects_iff.1 hsel, by simp only [decodeBy, hfind]⟩
  | none =>
    have hnone := List.find?_eq_none.1 hfind
    exact .inr ⟨fun r hr hw => hnone r hr (Row.selects_iff.2 hw), by simp only [decodeBy, hfind]⟩

/-- A word that matches no row is rejected. -/
theorem decodeBy_of_no_row {table : List Row} {w : InstrWord} (hno : ∀ r ∈ table, w &&& r.mask ≠ r.pattern) :
    decodeBy table w = .error (.noRow w) := by
  obtain ⟨r, hr, hw, -⟩ | ⟨-, herr⟩ := decodeBy_cases table w
  · exact absurd hw (hno r hr)
  · exact herr

/-- A word that matches one row alone is the instruction of that row. -/
theorem decodeBy_of_unique_row {table : List Row} {w : InstrWord} {r : Row} (hr : r ∈ table) (hw : w &&& r.mask = r.pattern)
    (huniq : ∀ q ∈ table, w &&& q.mask = q.pattern → q = r) : decodeBy table w = .ok (instrOfRow r w) := by
  obtain ⟨q, hq, hqw, hok⟩ | ⟨hno, -⟩ := decodeBy_cases table w
  · rw [hok, huniq q hq hqw]
  · exact absurd hw (hno r hr)

end Sys2Proof

namespace Sys2Proof.Machine

/-- A read and the completion after it are never refused. -/
theorem withRead_complete_ne_refused {α : Type} {r : Except Fault α} {next : α → State} {q : Refusal} :
    withRead r (fun v => complete (next v)) ≠ .refused q := by
  intro h
  obtain ⟨v, -, hv⟩ := withRead_eq_refused h
  exact complete_ne_refused _ _ hv

theorem execLq_ne_refused {rtp ra : RegNum} {dq : BitVec 12} {s : State} {q : Refusal} : execLq rtp ra dq s ≠ .refused q := by
  unfold execLq
  split
  · exact raise_ne_refused _ _
  · split
    · exact raise_ne_refused _ _
    · exact withRead_complete_ne_refused

theorem execLmw_ne_refused {rt ra : RegNum} {d : BitVec 16} {s : State} {q : Refusal} : execLmw rt ra d s ≠ .refused q := by
  unfold execLmw
  split
  · exact raise_ne_refused _ _
  · split
    · exact raise_ne_refused _ _
    · exact withRead_complete_ne_refused

/-- No instruction is refused: each is a plain load, an update load, `lq` or `lmw`, and none of these is. -/
theorem exec_ne_refused (i : Instr) (s : State) (q : Refusal) : exec i s ≠ .refused q := by
  cases i with
  | lbz | lbzx | lhz | lhzx | lha | lhax | lwz | lwzx | lwa | lwax | ld | ldx | lhbrx | lwbrx | ldbrx => exact load_ne_refused
  | lbzu | lbzux | lhzu | lhzux | lhau | lhaux | lwzu | lwzux | lwaux | ldu | ldux => exact loadUpdate_ne_refused
  | lq => exact execLq_ne_refused
  | lmw => exact execLmw_ne_refused

end Sys2Proof.Machine

namespace Sys2Proof.Proofs.Scope

open Sys2Proof Sys2Proof.Machine Sys2Proof.Safety

/-- Where `Readable` has its default, it holds of every address (20_memory.md R66). -/
theorem readable_of_everyAddress {s : State} (h : s.platform.readable = Config.everyAddress) (a : Word) : Readable s a := by
  have hlt : a.toNat < 0 + Config.addressSpace := by
    rw [Nat.zero_add]
    exact a.isLt
  exact ⟨⟨0, Config.addressSpace⟩, h ▸ List.mem_singleton_self _, Nat.zero_le _, hlt⟩

/-- Settles O33: `exec_ne_refused` leaves the other two outcomes. -/
theorem everyInstructionCompletesOrFaults : Obligations.EveryInstructionCompletesOrFaults := by
  intro i s
  cases h : exec i s with
  | next t => exact .inl ⟨t, rfl⟩
  | fault f => exact .inr ⟨f, rfl⟩
  | refused q => exact absurd h (exec_ne_refused i s q)

/-- Settles O6, from the two cases of a search of the table. -/
theorem decodingSearchesTheConfiguredTable : Obligations.DecodingSearchesTheConfiguredTable := by
  intro table w
  exact ⟨decodeBy_of_no_row, fun r hr hw huniq => ⟨decodeBy_of_unique_row hr hw huniq, instrOfRow_mnemonic r w⟩⟩

/-- Settles O49: the reset platform is built from the defaults, and one region spans the address space. -/
theorem resetHasTheDefaultPlatform : Obligations.ResetHasTheDefaultPlatform :=
  ⟨rfl, readable_of_everyAddress rfl, rfl⟩

end Sys2Proof.Proofs.Scope
end

section
/-! PROOFS. The state (10_state.md): what a completing instruction changes and leaves unchanged, what its outcome depends on, and what every
step and every run keeps. -/

namespace Sys2Proof.Machine

/-! Going on `n` bytes: `pc` moves, LE, storage and the platform stay, and the registers are free. -/

/-- From `s` to `t`, `pc` went on by `n` and nothing else changed but registers (10_state.md R35, R43). -/
structure AdvancedBy (n : Nat) (s t : State) : Prop where
  pc : t.pc = s.pc + BitVec.ofNat 64 n
  le : t.le = s.le
  mem : t.mem = s.mem
  platform : t.platform = s.platform

namespace AdvancedBy

theorem refl (s : State) : AdvancedBy 0 s s :=
  ⟨(BitVec.add_zero s.pc).symm, rfl, rfl, rfl⟩

theorem trans {m n : Nat} {s t u : State} (hst : AdvancedBy m s t) (htu : AdvancedBy n t u) : AdvancedBy (m + n) s u where
  pc := by rw [htu.pc, hst.pc, BitVec.ofNat_add, BitVec.add_assoc]
  le := htu.le.trans hst.le
  mem := htu.mem.trans hst.mem
  platform := htu.platform.trans hst.platform

theorem setReg (s : State) (r : RegNum) (v : Word) : AdvancedBy 0 s (s.setReg r v) :=
  ⟨(BitVec.add_zero s.pc).symm, rfl, rfl, rfl⟩

theorem setRegsFrom (s : State) (r : Nat) (vs : List Word) : AdvancedBy 0 s (s.setRegsFrom r vs) :=
  ⟨by simp, by simp, by simp, by simp⟩

theorem advance {s t : State} (h : AdvancedBy 0 s t) : AdvancedBy 4 s t.advance :=
  h.trans (n := 4) ⟨rfl, rfl, rfl, rfl⟩

end AdvancedBy

/-! The frame: `s` and `t` differ in `pc`, four on, and in the registers `rs`. -/

/-- What an instruction that writes the registers `rs` and completes leaves of the state before (10_state.md R32, R35, R43). -/
structure Frame (rs : List RegNum) (s t : State) : Prop where
  reg : ∀ r, r ∉ rs → t.reg r = s.reg r
  advanced : AdvancedBy 4 s t

/-- `lq` that completes is a valid form, read a quadword, and wrote the pair. -/
theorem execLq_eq_next {rtp ra : RegNum} {dq : BitVec 12} {s t : State} (h : execLq rtp ra dq s = .next t) :
    rtp ≠ ra ∧ rtp.val % 2 ≠ 1 ∧ ∃ q, memRead s (eaDisp s ra (dispDQ dq)) 16 = .ok q ∧
      t = ((s.setReg rtp (q.extractLsb' 64 64)).setReg (oddOfPair rtp) (q.extractLsb' 0 64)).advance := by
  unfold execLq at h
  split at h
  · exact absurd h (raise_ne_next _ _)
  · rename_i hra
    split at h
    · exact absurd h (raise_ne_next _ _)
    · rename_i hodd
      obtain ⟨q, hq, hk⟩ := withRead_eq_next h
      exact ⟨hra, hodd, q, hq, complete_eq_next hk⟩

/-- `lmw` that completes is a valid form in Big-Endian mode, read all its words, and wrote them from RT on. -/
theorem execLmw_eq_next {rt ra : RegNum} {d : BitVec 16} {s t : State} (h : execLmw rt ra d s = .next t) :
    ra < rt ∧ s.le = false ∧ ∃ vs, readWords s (eaDisp s ra (dispD d)) (32 - rt.val) = .ok vs ∧
      t = (s.setRegsFrom rt.val (vs.map zext64)).advance := by
  unfold execLmw at h
  split at h
  · exact absurd h (raise_ne_next _ _)
  · rename_i hra
    split at h
    · exact absurd h (raise_ne_next _ _)
    · rename_i hle
      obtain ⟨vs, hvs, hk⟩ := withRead_eq_next h
      exact ⟨not_le.1 hra, Bool.eq_false_of_not_eq_true hle, vs, hvs, complete_eq_next hk⟩

theorem load_frame {n : Nat} {widen : BitVec (8 * n) → Word} {rt : RegNum} {ea : Word} {s t : State}
    (h : load n widen rt ea s = .next t) : Frame [rt] s t := by
  obtain ⟨v, -, rfl⟩ := load_eq_next h
  refine ⟨fun r hr => ?_, (AdvancedBy.setReg ..).advance⟩
  have hne : rt ≠ r := (List.ne_of_not_mem_cons hr).symm
  rw [State.advance_reg, State.reg_setReg_ne _ _ _ _ hne]

/-- Two registers written, one after the other. -/
theorem frame_setReg_setReg (s : State) (r₁ r₂ : RegNum) (v₁ v₂ : Word) :
    Frame [r₁, r₂] s ((s.setReg r₁ v₁).setReg r₂ v₂).advance := by
  refine ⟨fun r hr => ?_, ((AdvancedBy.setReg ..).trans (AdvancedBy.setReg ..)).advance⟩
  obtain ⟨h₁, h₂⟩ : r ≠ r₁ ∧ r ≠ r₂ := by simpa using hr
  rw [State.advance_reg, State.reg_setReg_ne _ _ _ _ h₂.symm, State.reg_setReg_ne _ _ _ _ h₁.symm]

theorem loadUpdate_frame {w : InstrWord} {n : Nat} {widen : BitVec (8 * n) → Word} {rt ra : RegNum} {ea : Word} {s t : State}
    (h : loadUpdate w n widen rt ra ea s = .next t) : Frame [rt, ra] s t := by
  obtain ⟨-, -, v, -, rfl⟩ := loadUpdate_eq_next h
  exact frame_setReg_setReg ..

theorem execLq_frame {rtp ra : RegNum} {dq : BitVec 12} {s t : State} (h : execLq rtp ra dq s = .next t) :
    Frame [rtp, rtp + 1] s t := by
  obtain ⟨-, -, q, -, rfl⟩ := execLq_eq_next h
  exact frame_setReg_setReg ..

theorem execLmw_frame {rt ra : RegNum} {d : BitVec 16} {s t : State} (h : execLmw rt ra d s = .next t) :
    Frame ((List.finRange 32).filter (fun r => rt ≤ r)) s t := by
  obtain ⟨-, -, vs, -, rfl⟩ := execLmw_eq_next h
  refine ⟨fun r hr => ?_, (AdvancedBy.setRegsFrom ..).advance⟩
  have hlt : r < rt := by simpa using hr
  rw [State.advance_reg, State.reg_setRegsFrom_below _ _ _ _ hlt]

/-- A completing instruction writes the registers of R32's column "writes" and no other. -/
theorem exec_frame {i : Instr} {s t : State} (h : exec i s = .next t) : Frame (Safety.writes i) s t := by
  cases i with
  | lbz | lbzx | lhz | lhzx | lha | lhax | lwz | lwzx | lwa | lwax | ld | ldx | lhbrx | lwbrx | ldbrx => exact load_frame h
  | lbzu | lbzux | lhzu | lhzux | lhau | lhaux | lwzu | lwzux | lwaux | ldu | ldux => exact loadUpdate_frame h
  | lq => exact execLq_frame h
  | lmw => exact execLmw_frame h

/-! Steps and runs. -/

theorem step_advancedBy {s t : State} (h : step s = .next t) : AdvancedBy 4 s t := by
  obtain ⟨-, w, i, -, -, hexec⟩ := step_eq_next h
  exact (exec_frame hexec).advanced

/-- A run that did not stop made its first step and went on from there. -/
theorem run_succ_eq_next {k : Nat} {s t : State} (h : core.run (k + 1) s = .next t) :
    ∃ s', step s = .next s' ∧ core.run k s' = .next t := by
  cases hstep : core.step s with
  | next s' => exact ⟨s', hstep, by simpa only [Host.Core.run, hstep] using h⟩
  | fault f => simp [Host.Core.run, hstep] at h
  | refused r => simp [Host.Core.run, hstep] at h

theorem run_advancedBy {k : Nat} {s t : State} (h : core.run k s = .next t) : AdvancedBy (4 * k) s t := by
  induction k generalizing s with
  | zero =>
    cases h
    exact .refl _
  | succ k ih =>
    obtain ⟨s', hstep, hrun⟩ := run_succ_eq_next h
    have := (step_advancedBy hstep).trans (ih hrun)
    rwa [show 4 + 4 * k = 4 * (k + 1) by omega] at this

/-! What an outcome depends on. -/

/-- What an instruction may find in the state besides registers is the same in both: LE, storage and the platform. -/
structure SameSurroundings (s u : State) : Prop where
  le : s.le = u.le
  mem : s.mem = u.mem
  platform : s.platform = u.platform

/-- Two outcomes are the same fault, or next states that hold the same values in the registers `rs`. -/
inductive AgreeOn (rs : List RegNum) : Out → Out → Prop where
  | next {t t' : State} (h : ∀ r ∈ rs, t.reg r = t'.reg r) : AgreeOn rs (.next t) (.next t')
  | fault (f : Fault) : AgreeOn rs (.fault f) (.fault f)

theorem AgreeOn.of_fault {rs : List RegNum} {o o' : Out} (h : AgreeOn rs o o') {f : Fault} (ho : o = .fault f) : o' = .fault f := by
  cases h with
  | next h => cases ho
  | fault g => exact ho

theorem AgreeOn.of_next {rs : List RegNum} {o o' : Out} (h : AgreeOn rs o o') {t : State} (ho : o = .next t) :
    ∃ t', o' = .next t' ∧ ∀ r ∈ rs, t.reg r = t'.reg r := by
  cases h with
  | next h =>
    cases ho
    exact ⟨_, rfl, h⟩
  | fault g => cases ho

/-- After one read, outcomes agree when they agree for every value it can answer. -/
theorem withRead_agreeOn {α : Type} {rs : List RegNum} {r : Except Fault α} {k k' : α → Out}
    (h : ∀ v, r = .ok v → AgreeOn rs (k v) (k' v)) : AgreeOn rs (withRead r k) (withRead r k') := by
  cases r with
  | error f => exact .fault f
  | ok v => exact h v rfl

section Dependence

variable {s u : State}

theorem baseOrZero_congr {ra : RegNum} (h : ra ≠ 0 → s.reg ra = u.reg ra) : baseOrZero s ra = baseOrZero u ra := by
  unfold baseOrZero
  split
  · rfl
  · rename_i hra
    exact h hra

theorem eaDisp_congr {ra : RegNum} {disp : Word} (h : ∀ r ∈ (if ra = 0 then [] else [ra]), s.reg r = u.reg r) :
    eaDisp s ra disp = eaDisp u ra disp := by
  have hbase : baseOrZero s ra = baseOrZero u ra := baseOrZero_congr fun hra => h ra (by simp [hra])
  rw [eaDisp, eaDisp, hbase]

theorem eaIndexed_congr {ra rb : RegNum} (h : ∀ r ∈ (if ra = 0 then [rb] else [ra, rb]), s.reg r = u.reg r) :
    eaIndexed s ra rb = eaIndexed u ra rb := by
  have hbase : baseOrZero s ra = baseOrZero u ra := baseOrZero_congr fun hra => h ra (by simp [hra])
  have hindex : s.reg rb = u.reg rb := h rb (by split <;> simp)
  rw [eaIndexed, eaIndexed, hbase, hindex]

theorem eaDispUpdate_congr {ra : RegNum} {disp : Word} (h : ∀ r ∈ [ra], s.reg r = u.reg r) :
    eaDispUpdate s ra disp = eaDispUpdate u ra disp := by
  rw [eaDispUpdate, eaDispUpdate, h ra (by simp)]

theorem eaIndexedUpdate_congr {ra rb : RegNum} (h : ∀ r ∈ [ra, rb], s.reg r = u.reg r) :
    eaIndexedUpdate s ra rb = eaIndexedUpdate u ra rb := by
  rw [eaIndexedUpdate, eaIndexedUpdate, h ra (by simp), h rb (by simp)]

theorem SameSurroundings.memRead_eq (h : SameSurroundings s u) (a : Word) (n : Nat) : memRead s a n = memRead u a n :=
  memRead_congr h.le h.mem h.platform a n

theorem SameSurroundings.readWords_eq (h : SameSurroundings s u) (a : Word) (n : Nat) : readWords s a n = readWords u a n := by
  induction n generalizing a with
  | zero => rfl
  | succ n ih => simp only [readWords, h.memRead_eq, ih]

/-- The same two writes, one after the other, to two states. -/
theorem complete_setReg_setReg_agreeOn (r₁ r₂ : RegNum) (v₁ v₂ : Word) :
    AgreeOn [r₁, r₂] (complete ((s.setReg r₁ v₁).setReg r₂ v₂)) (complete ((u.setReg r₁ v₁).setReg r₂ v₂)) := by
  refine .next fun r hr => ?_
  obtain rfl | rfl : r = r₁ ∨ r = r₂ := by simpa using hr
  · simp [State.reg_setReg]
  · simp

theorem load_agreeOn (h : SameSurroundings s u) {n : Nat} {widen : BitVec (8 * n) → Word} {rt : RegNum} {ea ea' : Word} (hea : ea = ea') :
    AgreeOn [rt] (load n widen rt ea s) (load n widen rt ea' u) := by
  subst hea
  unfold load
  rw [h.memRead_eq]
  refine withRead_agreeOn fun v _ => .next fun r hr => ?_
  obtain rfl : r = rt := by simpa using hr
  simp

theorem loadUpdate_agreeOn (h : SameSurroundings s u) {w : InstrWord} {n : Nat} {widen : BitVec (8 * n) → Word} {rt ra : RegNum}
    {ea ea' : Word} (hea : ea = ea') : AgreeOn [rt, ra] (loadUpdate w n widen rt ra ea s) (loadUpdate w n widen rt ra ea' u) := by
  subst hea
  unfold loadUpdate
  split
  · exact .fault _
  · rw [h.memRead_eq]
    exact withRead_agreeOn fun v _ => complete_setReg_setReg_agreeOn ..

theorem execLq_agreeOn (h : SameSurroundings s u) {rtp ra : RegNum} {dq : BitVec 12}
    (hea : eaDisp s ra (dispDQ dq) = eaDisp u ra (dispDQ dq)) : AgreeOn [rtp, rtp + 1] (execLq rtp ra dq s) (execLq rtp ra dq u) := by
  unfold execLq
  split
  · exact .fault _
  · split
    · exact .fault _
    · rw [h.memRead_eq, hea]
      exact withRead_agreeOn fun q _ => complete_setReg_setReg_agreeOn ..

/-- Values for all registers from `r` on: two states that receive them agree there. -/
theorem reg_setRegsFrom_congr {r : Nat} {vs : List Word} (hlen : vs.length = 32 - r) {q : RegNum} (hq : r ≤ q.val) :
    (s.setRegsFrom r vs).reg q = (u.setRegsFrom r vs).reg q := by
  have hk : q.val - r < vs.length := by omega
  have hqk : q.val = r + (q.val - r) := by omega
  rw [State.reg_setRegsFrom_at vs s r q _ hk hqk, State.reg_setRegsFrom_at vs u r q _ hk hqk]

theorem execLmw_agreeOn (h : SameSurroundings s u) {rt ra : RegNum} {d : BitVec 16}
    (hea : eaDisp s ra (dispD d) = eaDisp u ra (dispD d)) :
    AgreeOn ((List.finRange 32).filter (fun r => rt ≤ r)) (execLmw rt ra d s) (execLmw rt ra d u) := by
  unfold execLmw
  rw [h.le, h.readWords_eq, hea]
  split
  · exact .fault _
  · split
    · exact .fault _
    · refine withRead_agreeOn fun vs hvs => .next fun r hr => ?_
      obtain ⟨hlen, -⟩ := readWords_eq_ok hvs
      have hle : rt ≤ r := by simpa using hr
      exact reg_setRegsFrom_congr (by rw [List.length_map, hlen]) hle

/-- An instruction's outcome depends, of the registers, only on those of R32's column "reads": they give its effective address. -/
theorem exec_agreeOn (h : SameSurroundings s u) {i : Instr} (hreads : ∀ r ∈ Safety.reads i, s.reg r = u.reg r) :
    AgreeOn (Safety.writes i) (exec i s) (exec i u) := by
  cases i with
  | lbz | lhz | lha | lwz | lwa | ld => exact load_agreeOn h (eaDisp_congr hreads)
  | lbzx | lhzx | lhax | lwzx | lwax | ldx | lhbrx | lwbrx | ldbrx => exact load_agreeOn h (eaIndexed_congr hreads)
  | lbzu | lhzu | lhau | lwzu | ldu => exact loadUpdate_agreeOn h (eaDispUpdate_congr hreads)
  | lbzux | lhzux | lhaux | lwzux | lwaux | ldux => exact loadUpdate_agreeOn h (eaIndexedUpdate_congr hreads)
  | lq => exact execLq_agreeOn h (eaDisp_congr hreads)
  | lmw => exact execLmw_agreeOn h (eaDisp_congr hreads)

end Dependence

end Sys2Proof.Machine

namespace Sys2Proof.Proofs.StateRules

open Sys2Proof Sys2Proof.Machine Sys2Proof.Safety

/-- Going on four bytes keeps the invariant: 4 divides 2^64, so `pc` stays a multiple of 4 where it wraps. -/
theorem inv_of_advancedBy_four {s t : State} (hinv : Inv s) (h : AdvancedBy 4 s t) : Inv t := by
  obtain ⟨⟨hpc, hend⟩, hmem⟩ := hinv
  have hpc' : t.pc.toNat % 4 = 0 := by
    rw [h.pc, BitVec.toNat_add, BitVec.toNat_ofNat]
    omega
  exact ⟨⟨hpc', by rwa [h.platform]⟩, by rwa [h.mem]⟩

/-- Settles O47: a step goes on four bytes. -/
theorem everyStepKeepsTheInvariant : Obligations.EveryStepKeepsTheInvariant :=
  fun _ _ hinv hstep => inv_of_advancedBy_four hinv (step_advancedBy hstep)

/-- Settles O50, by the induction over runs in `run_advancedBy`. -/
theorem runsNeverChangeStorage : Obligations.RunsNeverChangeStorage := by
  intro k s t hrun
  have h := run_advancedBy hrun
  exact ⟨h.mem, h.le, h.platform, h.pc⟩

/-- Settles O35, from the frame of every instruction. -/
theorem frameOfEveryInstruction : Obligations.FrameOfEveryInstruction := by
  intro i s t hexec
  obtain ⟨hreg, h⟩ := exec_frame hexec
  exact ⟨hreg, h.pc, h.le, h.platform, h.mem, fun a => by rw [h.mem]⟩

/-- Settles O36, from the agreement of the two outcomes. -/
theorem registersNotReadDoNotMatter : Obligations.RegistersNotReadDoNotMatter := by
  intro i s u hreads hle hmem hplatform
  have h := exec_agreeOn ⟨hle, hmem, hplatform⟩ hreads
  exact ⟨fun f => h.of_fault, fun t => h.of_next⟩

end Sys2Proof.Proofs.StateRules
end

section
/-! PROOFS. Storage (20_memory.md): the number that bytes stand for in each byte order and the bytes of a number, the values that reads give,
the check of an access, and the bytes found where bytes were written; and after them the loads where every access is admitted, and the byte
loads in the other byte-order mode. -/

namespace Sys2Proof

/-! Bytes and the number they stand for (R51). -/

/-- Bit `8 * k` has the weight of byte `k`. -/
theorem two_pow_eight_mul (k : Nat) : 2 ^ (8 * k) = 256 ^ k :=
  pow_mul 2 8 k

theorem leValue_append (xs ys : List Byte) : leValue (xs ++ ys) = leValue xs + 256 ^ xs.length * leValue ys := by
  induction xs with
  | nil => simp [leValue]
  | cons x xs ih =>
    simp only [List.cons_append, leValue, ih, List.length_cons, pow_succ]
    ring

theorem beValue_append (xs ys : List Byte) : beValue (xs ++ ys) = beValue xs * 256 ^ ys.length + beValue ys := by
  induction xs with
  | nil => simp [beValue]
  | cons x xs ih =>
    simp only [List.cons_append, beValue, ih, List.length_append, pow_add]
    ring

/-- Reading the bytes from the other end turns one byte order into the other. -/
theorem leValue_reverse (bs : List Byte) : leValue bs.reverse = beValue bs := by
  induction bs with
  | nil => rfl
  | cons b bs ih =>
    simp only [List.reverse_cons, leValue_append, ih, List.length_reverse, leValue, beValue]
    ring

theorem beValue_reverse (bs : List Byte) : beValue bs.reverse = leValue bs := by
  rw [← leValue_reverse, List.reverse_reverse]

theorem leValue_lt (bs : List Byte) : leValue bs < 256 ^ bs.length := by
  induction bs with
  | nil => simp [leValue]
  | cons b bs ih =>
    have hb : b.toNat < 256 := b.isLt
    simp only [leValue, List.length_cons, pow_succ]
    omega

theorem beValue_lt (bs : List Byte) : beValue bs < 256 ^ bs.length := by
  simpa [leValue_reverse] using leValue_lt bs.reverse

/-- `n` bytes assembled are the number they stand for: it fits in `8 * n` bits. -/
theorem assemble_toNat (le : Bool) {n : Nat} {bs : List Byte} (hlen : bs.length = n) :
    (assemble le n bs).toNat = if le then leValue bs else beValue bs := by
  subst hlen
  rw [assemble, BitVec.toNat_ofNat, two_pow_eight_mul]
  cases le with
  | false => exact Nat.mod_eq_of_lt (beValue_lt bs)
  | true => exact Nat.mod_eq_of_lt (leValue_lt bs)

/-- The byte sum of `MemReadLE`. -/
theorem leValue_map_range (f : Nat → Byte) (n : Nat) :
    leValue ((List.range n).map f) = ∑ i ∈ Finset.range n, (f i).toNat * 256 ^ i := by
  induction n with
  | zero => rfl
  | succ n ih => simp [List.range_succ, leValue_append, ih, Finset.sum_range_succ, leValue, mul_comm]

/-- The byte sum of `MemReadBE`. -/
theorem beValue_map_range (f : Nat → Byte) (n : Nat) :
    beValue ((List.range n).map f) = ∑ i ∈ Finset.range n, (f i).toNat * 256 ^ (n - 1 - i) := by
  induction n generalizing f with
  | zero => rfl
  | succ n ih =>
    rw [List.range_succ_eq_map, List.map_cons, List.map_map, beValue, ih, Finset.sum_range_succ', add_comm]
    simp [Nat.sub_add_eq, Nat.sub_right_comm]

/-- The bytes of a value are its digits to the base 256. -/
theorem bytesLE_eq_digits (n : Nat) (v : BitVec (8 * n)) :
    bytesLE n v = (List.range n).map fun i => BitVec.ofNat 8 (v.toNat / 256 ^ i) := by
  refine List.map_congr_left fun i _ => ?_
  rw [BitVec.extractLsb', Nat.shiftRight_eq_div_pow, two_pow_eight_mul]

/-- The digits to the base 256 of a number stand for the number. -/
theorem leValue_digits (n x : Nat) : leValue ((List.range n).map fun i => BitVec.ofNat 8 (x / 256 ^ i)) = x % 256 ^ n := by
  induction n generalizing x with
  | zero => simp [leValue, Nat.mod_one]
  | succ n ih =>
    have htail := ih (x / 256)
    simp only [Nat.div_div_eq_div_mul] at htail
    rw [pow_succ', Nat.mod_mul, ← htail]
    simp [List.range_succ_eq_map, leValue, Function.comp_def, pow_succ']

/-- The digits to the base 256 of the number that bytes stand for are the bytes. -/
theorem digits_leValue (bs : List Byte) :
    (List.range bs.length).map (fun i => BitVec.ofNat 8 (leValue bs / 256 ^ i)) = bs := by
  induction bs with
  | nil => rfl
  | cons b bs ih =>
    have hb : b.toNat < 256 := b.isLt
    have hhead : BitVec.ofNat 8 (b.toNat + 256 * leValue bs) = b := BitVec.eq_of_toNat_eq (by
      rw [BitVec.toNat_ofNat]
      omega)
    have htail (i : Nat) : (b.toNat + 256 * leValue bs) / 256 ^ (i + 1) = leValue bs / 256 ^ i := by
      rw [pow_succ', ← Nat.div_div_eq_div_mul, show (b.toNat + 256 * leValue bs) / 256 = leValue bs by omega]
    simp only [leValue, List.length_cons, List.range_succ_eq_map, List.map_cons, List.map_map, Function.comp_def, pow_zero,
      Nat.div_one, Nat.succ_eq_add_one, hhead, htail, ih]

theorem length_bytesLE (n : Nat) (v : BitVec (8 * n)) : (bytesLE n v).length = n := by
  simp [bytesLE]

theorem length_layout (le : Bool) (n : Nat) (v : BitVec (8 * n)) : (layout le n v).length = n := by
  cases le <;> simp [layout, length_bytesLE]

theorem leValue_bytesLE (n : Nat) (v : BitVec (8 * n)) : leValue (bytesLE n v) = v.toNat := by
  rw [bytesLE_eq_digits, leValue_digits, ← two_pow_eight_mul, Nat.mod_eq_of_lt v.isLt]

/-- A value laid out in a byte order and assembled in the same one is the value. -/
theorem assemble_layout (le : Bool) (n : Nat) (v : BitVec (8 * n)) : assemble le n (layout le n v) = v := by
  apply BitVec.eq_of_toNat_eq
  rw [assemble_toNat le (length_layout le n v)]
  cases le with
  | false => simp [layout, beValue_reverse, leValue_bytesLE]
  | true => simp [layout, leValue_bytesLE]

/-- The bytes of the value that bytes stand for in Big-Endian order are the bytes, the last one first. -/
theorem bytesLE_assemble_false {n : Nat} {bs : List Byte} (hlen : bs.length = n) : bytesLE n (assemble false n bs) = bs.reverse := by
  have hdigits := digits_leValue bs.reverse
  rw [leValue_reverse, List.length_reverse, hlen] at hdigits
  rw [bytesLE_eq_digits, assemble_toNat false hlen]
  exact hdigits

/-- The bytes of a Big-Endian value reversed are the bytes in Little-Endian order. -/
theorem reverseBytes_assemble_false {n : Nat} {bs : List Byte} (hlen : bs.length = n) :
    reverseBytes n (assemble false n bs) = assemble true n bs := by
  rw [reverseBytes, bytesLE_assemble_false hlen, beValue_reverse]
  rfl

end Sys2Proof

namespace Sys2Proof.Machine

/-! The fixed-order reads (R51, R56). -/

theorem length_bytesAt (m : Memory) (a : Word) (n : Nat) : (bytesAt m a n).length = n := by
  simp [bytesAt]

theorem bytesAt_one (m : Memory) (a : Word) : bytesAt m a 1 = [memByte m a] := by
  simp [bytesAt, byteAddr]

theorem byteAddr_add (a : Word) (k i : Nat) : byteAddr (byteAddr a k) i = byteAddr a (k + i) := by
  rw [byteAddr, byteAddr, byteAddr, BitVec.ofNat_add, BitVec.add_assoc]

/-- An offset that does not go all round storage leads to another address. -/
theorem byteAddr_ne_self {a : Word} {i : Nat} (hpos : 0 < i) (hlt : i < Config.addressSpace) : a ≠ byteAddr a i := by
  intro h
  have hzero : BitVec.ofNat 64 i = 0#64 := left_eq_add.1 h
  have hmod : i % 2 ^ 64 = 0 := by simpa using congrArg BitVec.toNat hzero
  rw [Config.addressSpace] at hlt
  omega

/-- The bytes at an address are those of any first part, and then the rest. -/
theorem bytesAt_add (m : Memory) (a : Word) (k n : Nat) : bytesAt m a (k + n) = bytesAt m a k ++ bytesAt m (byteAddr a k) n := by
  simp [bytesAt, List.range_add, byteAddr_add]

theorem memReadBE_toNat (m : Memory) (a : Word) (n : Nat) : (memReadBE m a n).toNat = beValue (bytesAt m a n) :=
  assemble_toNat false (length_bytesAt m a n)

theorem memReadLE_toNat (m : Memory) (a : Word) (n : Nat) : (memReadLE m a n).toNat = leValue (bytesAt m a n) :=
  assemble_toNat true (length_bytesAt m a n)

/-- A Big-Endian read of `k + n` bytes: the first `k` bytes above the `n` bytes after them. -/
theorem memReadBE_toNat_add (m : Memory) (a : Word) (k n : Nat) :
    (memReadBE m a (k + n)).toNat = (memReadBE m a k).toNat * 256 ^ n + (memReadBE m (byteAddr a k) n).toNat := by
  simp [memReadBE_toNat, bytesAt_add, beValue_append, length_bytesAt]

/-- A Little-Endian read of `k + n` bytes: the first `k` bytes below the `n` bytes after them. -/
theorem memReadLE_toNat_add (m : Memory) (a : Word) (k n : Nat) :
    (memReadLE m a (k + n)).toNat = (memReadLE m a k).toNat + 256 ^ k * (memReadLE m (byteAddr a k) n).toNat := by
  simp [memReadLE_toNat, bytesAt_add, leValue_append, length_bytesAt]

theorem memReadBE_lt (m : Memory) (a : Word) (n : Nat) : (memReadBE m a n).toNat < 256 ^ n :=
  two_pow_eight_mul n ▸ (memReadBE m a n).isLt

theorem memReadLE_lt (m : Memory) (a : Word) (n : Nat) : (memReadLE m a n).toNat < 256 ^ n :=
  two_pow_eight_mul n ▸ (memReadLE m a n).isLt

/-- In Big-Endian order the first `k` bytes are the high part of a wider read. -/
theorem memReadBE_high (m : Memory) (a : Word) (k n : Nat) :
    (memReadBE m a (k + n)).extractLsb' (8 * n) (8 * k) = memReadBE m a k := by
  apply BitVec.eq_of_toNat_eq
  have hlow := memReadBE_lt m (byteAddr a k) n
  rw [BitVec.extractLsb'_toNat, Nat.shiftRight_eq_div_pow, two_pow_eight_mul, two_pow_eight_mul, memReadBE_toNat_add, add_comm,
    Nat.add_mul_div_right _ _ (by positivity), Nat.div_eq_of_lt hlow, zero_add, Nat.mod_eq_of_lt (memReadBE_lt m a k)]

/-- In Big-Endian order the bytes after the first `k` are the low part of a wider read. -/
theorem memReadBE_low (m : Memory) (a : Word) (k n : Nat) :
    (memReadBE m a (k + n)).extractLsb' 0 (8 * n) = memReadBE m (byteAddr a k) n := by
  apply BitVec.eq_of_toNat_eq
  rw [BitVec.extractLsb'_toNat, Nat.shiftRight_zero, two_pow_eight_mul, memReadBE_toNat_add, Nat.mul_add_mod_self_right,
    Nat.mod_eq_of_lt (memReadBE_lt ..)]

/-- In Little-Endian order the first `k` bytes are the low part of a wider read. -/
theorem memReadLE_low (m : Memory) (a : Word) (k n : Nat) :
    (memReadLE m a (k + n)).extractLsb' 0 (8 * k) = memReadLE m a k := by
  apply BitVec.eq_of_toNat_eq
  rw [BitVec.extractLsb'_toNat, Nat.shiftRight_zero, two_pow_eight_mul, memReadLE_toNat_add, Nat.add_mul_mod_self_left,
    Nat.mod_eq_of_lt (memReadLE_lt ..)]

/-- In Little-Endian order the bytes after the first `k` are the high part of a wider read. -/
theorem memReadLE_high (m : Memory) (a : Word) (k n : Nat) :
    (memReadLE m a (k + n)).extractLsb' (8 * k) (8 * n) = memReadLE m (byteAddr a k) n := by
  apply BitVec.eq_of_toNat_eq
  have hlow := memReadLE_lt m a k
  rw [BitVec.extractLsb'_toNat, Nat.shiftRight_eq_div_pow, two_pow_eight_mul, two_pow_eight_mul, memReadLE_toNat_add,
    Nat.add_mul_div_left _ _ (by positivity), Nat.div_eq_of_lt hlow, zero_add, Nat.mod_eq_of_lt (memReadLE_lt ..)]

theorem memReadBE_one (m : Memory) (a : Word) : memReadBE m a 1 = memByte m a := by
  apply BitVec.eq_of_toNat_eq
  simp [memReadBE_toNat, bytesAt_one, beValue]

theorem memReadLE_one (m : Memory) (a : Word) : memReadLE m a 1 = memByte m a := by
  apply BitVec.eq_of_toNat_eq
  simp [memReadLE_toNat, bytesAt_one, leValue]

/-- The Little-Endian read has the bytes of the Big-Endian one in the opposite order. -/
theorem memReadLE_eq_reverseBytes (m : Memory) (a : Word) (n : Nat) : memReadLE m a n = reverseBytes n (memReadBE m a n) :=
  (reverseBytes_assemble_false (length_bytesAt m a n)).symm

/-! The word at an address, its bytes side by side as Safety.lean writes it (R51, R52). -/

/-- Bits put before others count above them. -/
theorem toNat_append_eq_add {k n : Nat} (x : BitVec k) (y : BitVec n) : (x ++ y).toNat = x.toNat * 2 ^ n + y.toNat := by
  rw [BitVec.toNat_append, ← Nat.shiftLeft_add_eq_or_of_lt y.isLt, Nat.shiftLeft_eq]

theorem bytesAt_four (m : Memory) (a : Word) :
    bytesAt m a 4 = [memByte m a, memByte m (a + 1), memByte m (a + 2), memByte m (a + 3)] := by
  simp [bytesAt, List.range_succ, byteAddr]

theorem memReadBE_four (m : Memory) (a : Word) : memReadBE m a 4 = Safety.word false m a := by
  apply BitVec.eq_of_toNat_eq
  simp only [memReadBE_toNat, bytesAt_four, Safety.word, Bool.false_eq_true, if_false, toNat_append_eq_add, beValue, List.length_cons,
    List.length_nil]
  omega

theorem memReadLE_four (m : Memory) (a : Word) : memReadLE m a 4 = Safety.word true m a := by
  apply BitVec.eq_of_toNat_eq
  simp only [memReadLE_toNat, bytesAt_four, Safety.word, if_true, toNat_append_eq_add, leValue]
  omega

/-- The word at an address in the byte order of the mode. -/
theorem read_four_eq_word (le : Bool) (m : Memory) (a : Word) :
    (if le then memReadLE m a 4 else memReadBE m a 4) = Safety.word le m a := by
  cases le with
  | false => exact memReadBE_four m a
  | true => exact memReadLE_four m a

/-! The check of an access, and `MemRead` (R52, R53, R66). -/

theorem readable_iff {s : State} {a : Word} : Safety.Readable s a ↔ isReadable s a = true :=
  (isReadable_iff s a).symm

/-- An access is admitted just when `check` finds no fault. -/
theorem admitted_iff_check {s : State} {a : Word} {n : Nat} : Safety.Admitted s a n ↔ check s a n = none := by
  simp only [check_eq_none, ← readable_iff]
  rfl

/-- The first unreadable byte of an access is unreadable, and every byte before it is readable. -/
theorem firstUnreadable_eq_some {s : State} {a : Word} {n : Nat} {b : Word} :
    firstUnreadable s a n = some b ↔
      ∃ k < n, (∀ j < k, isReadable s (byteAddr a j) = true) ∧ ¬ isReadable s (byteAddr a k) = true ∧ b = byteAddr a k := by
  simp only [firstUnreadable, List.find?_map, Option.map_eq_some_iff, List.find?_range_eq_some, List.mem_range, Function.comp_apply,
    Bool.not_not, Bool.not_eq_true', Bool.not_eq_true]
  constructor
  · rintro ⟨k, ⟨hk, hlt, hbefore⟩, rfl⟩
    exact ⟨k, hlt, hbefore, hk, rfl⟩
  · rintro ⟨k, hlt, hbefore, hk, rfl⟩
    exact ⟨k, ⟨hk, hlt, hbefore⟩, rfl⟩

theorem firstUnreadable_eq_none {s : State} {a : Word} {n : Nat} :
    firstUnreadable s a n = none ↔ ∀ i < n, Safety.Readable s (byteAddr a i) := by
  simp only [firstUnreadable, readable_iff]
  simp

/-- The alignment test passes just where `check` does not raise `Alignment`. -/
theorem alignmentOK_iff {s : State} {a : Word} {n : Nat} :
    Safety.AlignmentOK s a n ↔ ¬ (s.platform.misalignedOK = false ∧ a.toNat % n ≠ 0) := by
  simp only [not_and_or, Bool.not_eq_false, not_not]

/-- The fault that an access meets is the one that `check` finds. -/
theorem meets_iff_check {s : State} {a : Word} {n : Nat} {f : Fault} : Safety.Meets s a n f ↔ check s a n = some f := by
  unfold check
  split
  · rename_i hfail
    have hal : ¬ Safety.AlignmentOK s a n := fun hal => alignmentOK_iff.1 hal hfail
    rw [Option.some_inj]
    constructor
    · rintro (⟨-, -, rfl⟩ | ⟨hal', -⟩)
      · rfl
      · exact absurd hal' hal
    · rintro rfl
      exact .inl ⟨hfail.1, hfail.2, rfl⟩
  · rename_i hpass
    have hal : Safety.AlignmentOK s a n := alignmentOK_iff.2 hpass
    simp only [Option.map_eq_some_iff, firstUnreadable_eq_some, ← readable_iff]
    constructor
    · rintro (⟨hmis, hoff, -⟩ | ⟨-, k, hk, hbefore, hat, rfl⟩)
      · exact absurd ⟨hmis, hoff⟩ hpass
      · exact ⟨_, ⟨k, hk, hbefore, hat, rfl⟩, rfl⟩
    · rintro ⟨_, ⟨k, hk, hbefore, hat, rfl⟩, rfl⟩
      exact .inr ⟨hal, k, hk, hbefore, hat, rfl⟩

theorem memRead_of_admitted {s : State} {a : Word} {n : Nat} (h : Safety.Admitted s a n) :
    memRead s a n = .ok (if s.le = true then memReadLE s.mem a n else memReadBE s.mem a n) :=
  memRead_of_check_none (admitted_iff_check.1 h)

theorem memRead_of_meets {s : State} {a : Word} {n : Nat} {f : Fault} (h : Safety.Meets s a n f) : memRead s a n = .error f :=
  memRead_of_check_some (meets_iff_check.1 h)

/-- With the default parameters every access is admitted (R53). -/
theorem admitted_of_defaults {s : State} (hmis : s.platform.misalignedOK = true) (hread : ∀ b, Safety.Readable s b) (a : Word) (n : Nat) :
    Safety.Admitted s a n :=
  ⟨.inl hmis, fun i _ => hread (a + BitVec.ofNat 64 i)⟩

/-! Storage where bytes were written. -/

/-- A byte outside the addresses written is unchanged. -/
theorem memByte_writeBytes_of_outside {m : Memory} {a b : Word} {bs : List Byte} (hm : Memory.wf m = true)
    (hout : ∀ i < bs.length, b ≠ byteAddr a i) : memByte (Memory.writeBytes m a bs) b = memByte m b := by
  induction bs generalizing m a with
  | nil => rfl
  | cons v bs ih =>
    have hfirst : b ≠ a := by simpa [byteAddr] using hout 0 (Nat.succ_pos _)
    have hrest : ∀ i < bs.length, b ≠ byteAddr (a + 1) i := by
      intro i hi
      have := hout (1 + i) (by simp only [List.length_cons]; omega)
      rwa [← byteAddr_add] at this
    rw [Memory.writeBytes, ih (Memory.write_wf hm _ _ a.isLt) hrest, memByte_write hm, if_neg hfirst]

/-- Bytes written are read back, where they do not go all round storage. -/
theorem bytesAt_writeBytes {m : Memory} {a : Word} {bs : List Byte} (hm : Memory.wf m = true) (hlen : bs.length ≤ Config.addressSpace) :
    bytesAt (Memory.writeBytes m a bs) a bs.length = bs := by
  induction bs generalizing m a with
  | nil => rfl
  | cons v bs ih =>
    have hm' : Memory.wf (Memory.write m a.toNat v) = true := Memory.write_wf hm _ _ a.isLt
    rw [List.length_cons] at hlen
    have hout : ∀ i < bs.length, a ≠ byteAddr (a + 1) i := by
      intro i hi
      have := byteAddr_ne_self (a := a) (i := 1 + i) (by omega) (by omega)
      rwa [← byteAddr_add] at this
    have hfirst : memByte (Memory.writeBytes (Memory.write m a.toNat v) (a + 1) bs) a = v := by
      rw [memByte_writeBytes_of_outside hm' hout, memByte_write hm, if_pos rfl]
    have hrest : bytesAt (Memory.writeBytes (Memory.write m a.toNat v) (a + 1) bs) (byteAddr a 1) bs.length = bs := ih hm' (by omega)
    rw [Memory.writeBytes, List.length_cons, Nat.add_comm, bytesAt_add, hrest, bytesAt_one, hfirst]
    rfl

/-- `MemRead` in the byte order of the mode, as one assembling of bytes. -/
theorem readInMode_eq_assemble (le : Bool) (m : Memory) (a : Word) (n : Nat) :
    (if le = true then memReadLE m a n else memReadBE m a n) = assemble le n (bytesAt m a n) := by
  cases le <;> rfl

/-- An admitted read of a value that was stored answers the value. -/
theorem memRead_of_stored {s : State} {a : Word} {n : Nat} {v : BitVec (8 * n)} (hadm : Safety.Admitted s a n)
    (hbytes : bytesAt s.mem a n = layout s.le n v) : memRead s a n = .ok v := by
  rw [memRead_of_admitted hadm, readInMode_eq_assemble, hbytes, assemble_layout]

/-! What opening the fetch makes readable. -/

/-- One-byte regions hold the addresses they begin at, and no other. -/
theorem exists_mem_byteRegions_iff {pc b : Word} {n : Nat} :
    (∃ r ∈ (List.range n).map (fun i => (⟨(byteAddr pc i).toNat, 1⟩ : Config.Region)), r.base ≤ b.toNat ∧ b.toNat < r.base + r.size) ↔
      ∃ i < n, b = byteAddr pc i := by
  have hone (i : Nat) : (byteAddr pc i).toNat ≤ b.toNat ∧ b.toNat ≤ (byteAddr pc i).toNat ↔ b = byteAddr pc i := by
    rw [← BitVec.toNat_inj]
    omega
  simp [hone]

/-- Opening the fetch makes the four bytes at `pc` readable and leaves the readability of every other byte (log 17). -/
theorem readable_openFetch {s : State} {b : Word} :
    Safety.Readable (openFetch s) b ↔ Safety.Readable s b ∨ ∃ i < 4, b = byteAddr s.pc i := by
  cases hfirst : firstUnreadable s s.pc 4 with
  | none =>
    have hsame : (openFetch s).platform.readable = s.platform.readable := by simp [openFetch, hfirst]
    have hfour : (∃ i < 4, b = byteAddr s.pc i) → Safety.Readable s b := by
      rintro ⟨i, hi, rfl⟩
      exact firstUnreadable_eq_none.1 hfirst i hi
    rw [or_iff_left_of_imp hfour, Safety.Readable, hsame]
  | some c =>
    have hopen : (openFetch s).platform.readable =
        ((List.range 4).map fun i => ⟨(byteAddr s.pc i).toNat, 1⟩) ++ s.platform.readable := by simp [openFetch, hfirst]
    simp only [Safety.Readable, hopen, List.mem_append, or_and_right, exists_or, exists_mem_byteRegions_iff]
    exact or_comm

/-- Opening the fetch takes `EndAddr` away from `pc`. -/
theorem pc_ne_endAddr_openFetch (s : State) : s.pc ≠ (openFetch s).platform.endAddr := by
  rw [openFetch_endAddr]
  split
  · exact byteAddr_ne_self (i := 4) (by decide) (by decide)
  · assumption

/-! Every access admitted: each valid form completes (R53). -/

section Completion

variable {s : State}

/-- What follows an admitted read and completes for every value completes. -/
theorem withRead_memRead_completes {ea : Word} {n : Nat} {next : BitVec (8 * n) → State} (hadm : Safety.Admitted s ea n) :
    ∃ t, withRead (memRead s ea n) (fun v => complete (next v)) = .next t := by
  rw [memRead_of_admitted hadm]
  exact ⟨_, rfl⟩

theorem load_completes {n : Nat} {widen : BitVec (8 * n) → Word} {rt : RegNum} {ea : Word} (hadm : Safety.Admitted s ea n) :
    ∃ t, load n widen rt ea s = .next t :=
  withRead_memRead_completes hadm

theorem loadUpdate_completes {w : InstrWord} {n : Nat} {widen : BitVec (8 * n) → Word} {rt ra : RegNum} {ea : Word}
    (hwf : updateWellFormed rt ra = true) (hadm : Safety.Admitted s ea n) : ∃ t, loadUpdate w n widen rt ra ea s = .next t := by
  obtain ⟨hzero, hrt⟩ : ra ≠ 0 ∧ ra ≠ rt := by simpa [updateWellFormed] using hwf
  rw [loadUpdate, if_neg (not_or.2 ⟨hzero, hrt⟩)]
  exact withRead_memRead_completes hadm

theorem execLq_completes {rtp ra : RegNum} {dq : BitVec 12} (hwf : quadWellFormed rtp ra = true)
    (hadm : Safety.Admitted s (eaDisp s ra (dispDQ dq)) 16) : ∃ t, execLq rtp ra dq s = .next t := by
  obtain ⟨heven, hne⟩ : rtp.val % 2 = 0 ∧ rtp ≠ ra := by simpa [quadWellFormed] using hwf
  rw [execLq, if_neg hne, if_neg (by omega)]
  exact withRead_memRead_completes hadm

/-- Words all of which are admitted are all read. -/
theorem readWords_completes (hadm : ∀ a, Safety.Admitted s a 4) (a : Word) (n : Nat) : ∃ vs, readWords s a n = .ok vs := by
  induction n generalizing a with
  | zero => exact ⟨[], rfl⟩
  | succ n ih =>
    obtain ⟨vs, hvs⟩ := ih (a + 4)
    simp only [readWords, memRead_of_admitted (hadm a), hvs]
    exact ⟨_, rfl⟩

theorem execLmw_completes {rt ra : RegNum} {d : BitVec 16} (hwf : multipleWellFormed rt ra = true) (hle : s.le = false)
    (hadm : ∀ a, Safety.Admitted s a 4) : ∃ t, execLmw rt ra d s = .next t := by
  have hlt : ra < rt := by simpa [multipleWellFormed] using hwf
  obtain ⟨vs, hvs⟩ := readWords_completes hadm (eaDisp s ra (dispD d)) (32 - rt.val)
  rw [execLmw, if_neg (not_le.2 hlt), if_neg (by simp [hle]), hvs]
  exact ⟨_, rfl⟩

/-- A valid form completes where every access is admitted, `lmw` in Big-Endian mode. -/
theorem exec_completes (hadm : ∀ a n, Safety.Admitted s a n) {i : Instr} (hwf : i.wf = true)
    (hmode : s.le = false ∨ i.mnemonic ≠ .lmw) : ∃ t, exec i s = .next t := by
  cases i with
  | lbz | lbzx | lhz | lhzx | lha | lhax | lwz | lwzx | lwa | lwax | ld | ldx | lhbrx | lwbrx | ldbrx => exact load_completes (hadm ..)
  | lbzu | lbzux | lhzu | lhzux | lhau | lhaux | lwzu | lwzux | lwaux | ldu | ldux => exact loadUpdate_completes hwf (hadm ..)
  | lq => exact execLq_completes hwf (hadm ..)
  | lmw => exact execLmw_completes hwf (hmode.resolve_right (not_not.2 rfl)) (hadm · 4)

end Completion

/-! The other byte-order mode: a one-byte read is the same (R51). -/

section OtherMode

variable {s : State}

/-- A read of one byte meets the same fault or answers the same value in both modes. -/
theorem memRead_one_otherMode (a : Word) : memRead (Safety.otherMode s) a 1 = memRead s a 1 := by
  have hcheck : check (Safety.otherMode s) a 1 = check s a 1 := rfl
  have hmem : (Safety.otherMode s).mem = s.mem := rfl
  simp only [memRead, hcheck, hmem, memReadLE_one, memReadBE_one, ite_self]

/-- After the same read, outcomes are the same up to the mode when they are for every value. -/
theorem withRead_otherModeOut {α : Type} {r : Except Fault α} {k k' : α → Out} (h : ∀ v, k' v = Safety.otherModeOut (k v)) :
    withRead r k' = Safety.otherModeOut (withRead r k) := by
  cases r with
  | error f => rfl
  | ok v => exact h v

theorem load_one_otherMode {widen : BitVec (8 * 1) → Word} {rt : RegNum} {ea : Word} :
    load 1 widen rt ea (Safety.otherMode s) = Safety.otherModeOut (load 1 widen rt ea s) := by
  unfold load
  rw [memRead_one_otherMode]
  exact withRead_otherModeOut fun _ => rfl

theorem loadUpdate_one_otherMode {w : InstrWord} {widen : BitVec (8 * 1) → Word} {rt ra : RegNum} {ea : Word} :
    loadUpdate w 1 widen rt ra ea (Safety.otherMode s) = Safety.otherModeOut (loadUpdate w 1 widen rt ra ea s) := by
  unfold loadUpdate
  split
  · rfl
  · rw [memRead_one_otherMode]
    exact withRead_otherModeOut fun _ => rfl

end OtherMode

end Sys2Proof.Machine

namespace Sys2Proof.Proofs.Storage

open Sys2Proof Sys2Proof.Machine Sys2Proof.Safety

/-- Settles O10, from the byte sums of the two orders and the digits of the Big-Endian read. -/
theorem fixedOrderReadsAreByteSums : Obligations.FixedOrderReadsAreByteSums := by
  intro m a n
  refine ⟨?_, ?_, memReadLE_eq_reverseBytes m a n, (memReadLE_one m a).trans (memReadBE_one m a).symm⟩
  · rw [memReadBE_toNat, bytesAt, beValue_map_range]
    rfl
  · rw [memReadLE_toNat, bytesAt, leValue_map_range]
    rfl

/-- Settles O11: admission is that `check` finds no fault, and a fault met is the one it finds. -/
theorem memReadIsCheckedAndFollowsTheMode : Obligations.MemReadIsCheckedAndFollowsTheMode := by
  intro s a n
  exact ⟨memRead_of_admitted, fun f => memRead_of_meets,
    fun hmis hread => ⟨_, memRead_of_admitted (admitted_of_defaults hmis hread a n)⟩⟩

/-- Settles O12: each equation is a part of the doubleword, split after its first byte or after its first word. -/
theorem overlappingReadsAgree : Obligations.OverlappingReadsAgree := by
  intro m a
  exact ⟨memReadBE_high m a 1 7, memReadBE_low m a 4 4, memReadLE_low m a 1 7, memReadLE_high m a 4 4⟩

/-- Settles O13: fetch is `MemRead(pc, 4)`. -/
theorem fetchReadsTheWordAtPc : Obligations.FetchReadsTheWordAtPc := by
  intro s
  refine ⟨fun hadm => ?_, fun f hmeets => memRead_of_meets hmeets⟩
  rw [fetch, memRead_of_admitted hadm, read_four_eq_word]

/-- The word placed at `pc` is fetched, where `pc` passes the alignment test. -/
theorem fetch_withFetchWord {s : State} {w : InstrWord} (hm : Memory.wf s.mem = true) (hal : AlignmentOK s s.pc 4) :
    fetch (s.withFetchWord 32 w.toNat) = .ok w := by
  have hword : BitVec.ofNat 32 (w.toNat % 2 ^ 32) = w := by rw [Nat.mod_eq_of_lt w.isLt, BitVec.ofNat_toNat, BitVec.setWidth_eq]
  have hlen := length_layout s.le 4 w
  have hbytes : bytesAt (Memory.writeBytes s.mem s.pc (layout s.le 4 w)) s.pc 4 = layout s.le 4 w := by
    have := bytesAt_writeBytes (a := s.pc) hm (bs := layout s.le 4 w) (by rw [hlen]; decide)
    rwa [hlen] at this
  rw [State.withFetchWord, hword]
  exact memRead_of_stored ⟨hal, fun i hi => readable_openFetch.2 (.inr ⟨i, hi, rfl⟩)⟩ hbytes

/-- Settles O14: storing the word changes its four bytes, and opening the fetch the readability of these and an `EndAddr` at `pc`. -/
theorem placedWordIsFetched : Obligations.PlacedWordIsFetched := by
  rintro s w t hm hal rfl
  refine ⟨fetch_withFetchWord hm hal, rfl, rfl, rfl, rfl, rfl, fun h => ?_, fun h => ?_, ?_, fun b hout => ?_, fun b => readable_openFetch⟩
  · exact if_neg h.symm
  · exact if_pos h.symm
  · exact pc_ne_endAddr_openFetch (memWrite s s.pc 4 _)
  · refine memByte_writeBytes_of_outside hm ?_
    rwa [length_layout]

/-- Settles O34: with the default parameters every access is admitted. -/
theorem validFormsCompleteUnderTheDefaults : Obligations.ValidFormsCompleteUnderTheDefaults :=
  fun _ _ hwf hmis hread hmode => exec_completes (admitted_of_defaults hmis hread) hwf hmode

/-- Settles O39: the effective address does not depend on the mode, and neither does a read of one byte. -/
theorem byteLoadsIgnoreTheMode : Obligations.ByteLoadsIgnoreTheMode :=
  fun _ _ _ _ _ => ⟨load_one_otherMode, load_one_otherMode, loadUpdate_one_otherMode, loadUpdate_one_otherMode⟩

end Sys2Proof.Proofs.Storage
end

section
/-! PROOFS. The encoding (30_encoding.md): the rows of the default table and the formats they share, decoding and encoding as inverses of each
other, the words that no row matches, invalid forms at the step, and the displacements. -/

namespace Sys2Proof

/-! The format of a row gives its mask and its field places (R81 to R85, R95). -/

/-- The four instruction formats. -/
inductive Form where
  | d | ds | dq | x

/-- The format of an instruction, column "form" of the opcode map (R95). -/
def Mnemonic.form : Mnemonic → Form
  | .lbz | .lbzu | .lhz | .lhzu | .lha | .lhau | .lwz | .lwzu | .lmw => .d
  | .lwa | .ld | .ldu => .ds
  | .lq => .dq
  | .lbzx | .lbzux | .lhzx | .lhzux | .lhax | .lhaux | .lwzx | .lwzux | .lwax | .lwaux | .ldx | .ldux | .lhbrx | .lwbrx | .ldbrx => .x

/-- Where the operand fields of a format stand. -/
def Form.places : Form → FieldPlaces
  | .d => dPlaces
  | .ds => dsPlaces
  | .dq => dqPlaces
  | .x => xPlaces

/-- The bits of a format that are no operand: PO, XO and the reserved bits. -/
def Form.mask : Form → InstrWord
  | .d => 0xFC000000
  | .ds => 0xFC000003
  | .dq => 0xFC00000F
  | .x => 0xFC0007FF

/-- A row of the default table has the places and the mask of its format, and its pattern is its instruction's word with zero operands. -/
theorem row_of_mem_decodeTable :
    ∀ r ∈ decodeTable, r.fields = r.name.form.places ∧ r.mask = r.name.form.mask ∧ r.pattern = encode (instrOfRow r 0) := by
  decide

/-! The formats put together from a word's own fields: the operand bits are those of the word, the others those of the format. -/

theorem regBits_regField (w : InstrWord) (lo : Nat) : regBits (regField w lo) = w.extractLsb' lo 5 := rfl

theorem regBits_zero : regBits 0 = 0 := rfl

theorem dForm_fields (po : BitVec 6) (w : InstrWord) :
    dForm po (fieldRT dPlaces w) (fieldRA dPlaces w) (fieldD dPlaces w) = dForm po 0 0 0 ||| (w &&& ~~~0xFC000000) := by
  apply BitVec.eq_of_getLsbD_eq
  intro i hi
  rw [BitVec.getLsbD_or, BitVec.getLsbD_and, dForm_bit, dForm_bit]
  interval_cases i <;> simp [fieldRT, fieldRA, fieldD, dPlaces, regBits_regField, regBits_zero]

theorem dsForm_fields (po : BitVec 6) (xo : BitVec 2) (w : InstrWord) :
    dsForm po (fieldRT dsPlaces w) (fieldRA dsPlaces w) (fieldDS dsPlaces w) xo = dsForm po 0 0 0 xo ||| (w &&& ~~~0xFC000003) := by
  apply BitVec.eq_of_getLsbD_eq
  intro i hi
  rw [BitVec.getLsbD_or, BitVec.getLsbD_and, dsForm_bit, dsForm_bit]
  interval_cases i <;> simp [fieldRT, fieldRA, fieldDS, dsPlaces, regBits_regField, regBits_zero]

theorem dqForm_fields (po : BitVec 6) (w : InstrWord) :
    dqForm po (fieldRT dqPlaces w) (fieldRA dqPlaces w) (fieldDQ dqPlaces w) = dqForm po 0 0 0 ||| (w &&& ~~~0xFC00000F) := by
  apply BitVec.eq_of_getLsbD_eq
  intro i hi
  rw [BitVec.getLsbD_or, BitVec.getLsbD_and, dqForm_bit, dqForm_bit]
  interval_cases i <;> simp [fieldRT, fieldRA, fieldDQ, dqPlaces, regBits_regField, regBits_zero]

theorem xForm_fields (po : BitVec 6) (xo : BitVec 10) (w : InstrWord) :
    xForm po (fieldRT xPlaces w) (fieldRA xPlaces w) (fieldRB xPlaces w) xo = xForm po 0 0 0 xo ||| (w &&& ~~~0xFC0007FF) := by
  apply BitVec.eq_of_getLsbD_eq
  intro i hi
  rw [BitVec.getLsbD_or, BitVec.getLsbD_and, xForm_bit, xForm_bit]
  interval_cases i <;> simp [fieldRT, fieldRA, fieldRB, xPlaces, regBits_regField, regBits_zero]

/-! Encoding after decoding. -/

/-- The word of the instruction that a row reads from a word: the row's pattern, and the bits of the word outside the row's mask. -/
theorem encode_instrOfRow {r : Row} (hr : r ∈ decodeTable) (w : InstrWord) :
    encode (instrOfRow r w) = r.pattern ||| (w &&& ~~~r.mask) := by
  obtain ⟨hfields, hmask, hpattern⟩ := row_of_mem_decodeTable r hr
  rw [hpattern]
  obtain ⟨name, pattern, mask, fields⟩ := r
  obtain rfl : fields = name.form.places := hfields
  obtain rfl : mask = name.form.mask := hmask
  cases name with
  | lbz | lbzu | lhz | lhzu | lha | lhau | lwz | lwzu | lmw => exact dForm_fields ..
  | lwa | ld | ldu => exact dsForm_fields ..
  | lq => exact dqForm_fields ..
  | lbzx | lbzux | lhzx | lhzux | lhax | lhaux | lwzx | lwzux | lwax | lwaux | ldx | ldux | lhbrx | lwbrx | ldbrx => exact xForm_fields ..

/-- The bits of a word under a mask and those outside it are the word. -/
theorem and_or_and_not (w mask : InstrWord) : (w &&& mask) ||| (w &&& ~~~mask) = w := by
  rw [← BitVec.and_or_distrib_left, BitVec.or_not_self, BitVec.and_allOnes]

theorem encode_instrOfRow_of_matches {r : Row} (hr : r ∈ decodeTable) {w : InstrWord} (hw : w &&& r.mask = r.pattern) :
    encode (instrOfRow r w) = w := by
  rw [encode_instrOfRow hr, ← hw, and_or_and_not]

/-! Decoding after encoding. -/

/-- Two patterns that one word matches agree under both masks. -/
theorem patterns_agree_of_matches {r q : Row} {w : InstrWord} (hr : w &&& r.mask = r.pattern) (hq : w &&& q.mask = q.pattern) :
    r.pattern &&& q.mask = q.pattern &&& r.mask := by
  rw [← hr, ← hq, BitVec.and_assoc, BitVec.and_assoc, BitVec.and_comm r.mask]

/-- The patterns of two rows of the default table differ in a bit that both rows' masks hold (R98). -/
theorem decodeTable_patterns_differ :
    ∀ r ∈ decodeTable, ∀ q ∈ decodeTable, r.pattern &&& q.mask = q.pattern &&& r.mask → r = q := by
  decide

theorem row_unique_of_matches {r q : Row} (hr : r ∈ decodeTable) (hq : q ∈ decodeTable) {w : InstrWord} (hrw : w &&& r.mask = r.pattern)
    (hqw : w &&& q.mask = q.pattern) : r = q :=
  decodeTable_patterns_differ r hr q hq (patterns_agree_of_matches hrw hqw)

/-- A word that matches a row of the default table decodes to that row's instruction. -/
theorem decode_of_matches {r : Row} (hr : r ∈ decodeTable) {w : InstrWord} (hw : w &&& r.mask = r.pattern) :
    decode w = .ok (instrOfRow r w) :=
  decodeBy_of_unique_row hr hw fun _ hq hqw => row_unique_of_matches hq hr hqw hw

/-- The operands that an instruction's own row reads from its word are the instruction's. -/
theorem instrOfRow_encode {r : Row} (hfields : r.fields = r.name.form.places) {i : Instr} (hname : r.name = i.mnemonic) :
    instrOfRow r (encode i) = i := by
  obtain ⟨name, pattern, mask, fields⟩ := r
  obtain rfl : name = i.mnemonic := hname
  obtain rfl : fields = i.mnemonic.form.places := hfields
  cases i with
  | lbz | lbzu | lhz | lhzu | lha | lhau | lwz | lwzu | lmw =>
    simp only [instrOfRow, Instr.mnemonic, Mnemonic.form, Form.places, encode, fieldRT_dForm, fieldRA_dForm, fieldD_dForm]
  | lwa | ld | ldu =>
    simp only [instrOfRow, Instr.mnemonic, Mnemonic.form, Form.places, encode, fieldRT_dsForm, fieldRA_dsForm, fieldDS_dsForm]
  | lq =>
    simp only [instrOfRow, Instr.mnemonic, Mnemonic.form, Form.places, encode, fieldRT_dqForm, fieldRA_dqForm, fieldDQ_dqForm]
  | lbzx | lbzux | lhzx | lhzux | lhax | lhaux | lwzx | lwzux | lwax | lwaux | ldx | ldux | lhbrx | lwbrx | ldbrx =>
    simp only [instrOfRow, Instr.mnemonic, Mnemonic.form, Form.places, encode, fieldRT_xForm, fieldRA_xForm, fieldRB_xForm]

/-- The word of an instruction matches the row of the instruction's mnemonic, one law for each instruction. -/
theorem encodedInItsRow (i : Instr) : Laws.EncodedInItsRow.Statement i := by
  cases i with
  | lbz => exact Laws.EncodedInItsRow.lbz ..
  | lbzx => exact Laws.EncodedInItsRow.lbzx ..
  | lbzu => exact Laws.EncodedInItsRow.lbzu ..
  | lbzux => exact Laws.EncodedInItsRow.lbzux ..
  | lhz => exact Laws.EncodedInItsRow.lhz ..
  | lhzx => exact Laws.EncodedInItsRow.lhzx ..
  | lhzu => exact Laws.EncodedInItsRow.lhzu ..
  | lhzux => exact Laws.EncodedInItsRow.lhzux ..
  | lha => exact Laws.EncodedInItsRow.lha ..
  | lhax => exact Laws.EncodedInItsRow.lhax ..
  | lhau => exact Laws.EncodedInItsRow.lhau ..
  | lhaux => exact Laws.EncodedInItsRow.lhaux ..
  | lwz => exact Laws.EncodedInItsRow.lwz ..
  | lwzx => exact Laws.EncodedInItsRow.lwzx ..
  | lwzu => exact Laws.EncodedInItsRow.lwzu ..
  | lwzux => exact Laws.EncodedInItsRow.lwzux ..
  | lwa => exact Laws.EncodedInItsRow.lwa ..
  | lwax => exact Laws.EncodedInItsRow.lwax ..
  | lwaux => exact Laws.EncodedInItsRow.lwaux ..
  | ld => exact Laws.EncodedInItsRow.ld ..
  | ldx => exact Laws.EncodedInItsRow.ldx ..
  | ldu => exact Laws.EncodedInItsRow.ldu ..
  | ldux => exact Laws.EncodedInItsRow.ldux ..
  | lq => exact Laws.EncodedInItsRow.lq ..
  | lhbrx => exact Laws.EncodedInItsRow.lhbrx ..
  | lwbrx => exact Laws.EncodedInItsRow.lwbrx ..
  | ldbrx => exact Laws.EncodedInItsRow.ldbrx ..
  | lmw => exact Laws.EncodedInItsRow.lmw ..

theorem decode_encode (i : Instr) : decode (encode i) = .ok i := by
  obtain ⟨r, hr, hname, hsel⟩ := encodedInItsRow i
  obtain ⟨hfields, -, -⟩ := row_of_mem_decodeTable r hr
  rw [decode_of_matches hr (Row.selects_iff.1 hsel), instrOfRow_encode hfields hname]

theorem encode_of_decode {w : InstrWord} {i : Instr} (h : decode w = .ok i) : encode i = w := by
  obtain ⟨r, hr, hw, hok⟩ | ⟨-, herr⟩ := decodeBy_cases decodeTable w
  · obtain rfl : instrOfRow r w = i := by
      rw [decode, hok] at h
      injection h
    exact encode_instrOfRow_of_matches hr hw
  · rw [decode, herr] at h
    cases h

/-! The fields of the four formats that are no operand: PO, XO and the reserved bits (R81 to R84). -/

theorem po_dForm (po : BitVec 6) (rt ra : RegNum) (d : BitVec 16) : (dForm po rt ra d).extractLsb' 26 6 = po := by
  apply field_eq
  intro i hi
  rw [dForm_bit, if_neg (by omega), if_neg (by omega), if_neg (by omega)]
  congr 1; omega

theorem po_dsForm (po : BitVec 6) (rt ra : RegNum) (ds : BitVec 14) (xo : BitVec 2) :
    (dsForm po rt ra ds xo).extractLsb' 26 6 = po := by
  apply field_eq
  intro i hi
  rw [dsForm_bit, if_neg (by omega), if_neg (by omega), if_neg (by omega), if_neg (by omega)]
  congr 1; omega

theorem xo_dsForm (po : BitVec 6) (rt ra : RegNum) (ds : BitVec 14) (xo : BitVec 2) :
    (dsForm po rt ra ds xo).extractLsb' 0 2 = xo :=
  BitVec.extractLsb'_append_eq_right

theorem po_dqForm (po : BitVec 6) (rtp ra : RegNum) (dq : BitVec 12) : (dqForm po rtp ra dq).extractLsb' 26 6 = po := by
  apply field_eq
  intro i hi
  rw [dqForm_bit, if_neg (by omega), if_neg (by omega), if_neg (by omega), if_neg (by omega)]
  congr 1; omega

theorem reserved_dqForm (po : BitVec 6) (rtp ra : RegNum) (dq : BitVec 12) : (dqForm po rtp ra dq).extractLsb' 0 4 = 0 :=
  BitVec.extractLsb'_append_eq_right

theorem po_xForm (po : BitVec 6) (rt ra rb : RegNum) (xo : BitVec 10) : (xForm po rt ra rb xo).extractLsb' 26 6 = po := by
  apply field_eq
  intro i hi
  rw [xForm_bit, if_neg (by omega), if_neg (by omega), if_neg (by omega), if_neg (by omega), if_neg (by omega)]
  congr 1; omega

theorem xo_xForm (po : BitVec 6) (rt ra rb : RegNum) (xo : BitVec 10) : (xForm po rt ra rb xo).extractLsb' 1 10 = xo := by
  apply field_eq
  intro i hi
  rw [xForm_bit, if_neg (by omega), if_pos (by omega)]
  congr 1; omega

theorem reserved_xForm (po : BitVec 6) (rt ra rb : RegNum) (xo : BitVec 10) : (xForm po rt ra rb xo).extractLsb' 0 1 = 0 :=
  BitVec.extractLsb'_append_eq_right

/-- A register field read as a number. -/
theorem toNat_of_regField_eq {w : InstrWord} {lo : Nat} {r : RegNum} (h : regField w lo = r) : (w.extractLsb' lo 5).toNat = r.val :=
  congrArg Fin.val h

/-! Words that match no row of the default table (R99, R101). -/

/-- Where a mask holds a whole field, the pattern fixes the field. -/
theorem field_of_matches {w mask pattern : InstrWord} {lo n : Nat} (hw : w &&& mask = pattern)
    (hmask : mask.extractLsb' lo n = BitVec.allOnes n) : w.extractLsb' lo n = pattern.extractLsb' lo n := by
  rw [← hw, BitVec.extractLsb'_and, hmask, BitVec.and_allOnes]

/-- The primary opcodes of the opcode map. -/
theorem decodeTable_po : ∀ r ∈ decodeTable, r.mask.extractLsb' 26 6 = BitVec.allOnes 6 ∧
    r.pattern.extractLsb' 26 6 ∈ ([31, 32, 33, 34, 35, 40, 41, 42, 43, 46, 56, 58] : List (BitVec 6)) := by
  decide

/-- A word matches a row only with the row's primary opcode. -/
theorem po_of_matches {r : Row} (hr : r ∈ decodeTable) {w : InstrWord} (hw : w &&& r.mask = r.pattern) :
    w.extractLsb' 26 6 = r.pattern.extractLsb' 26 6 :=
  field_of_matches hw (decodeTable_po r hr).1

/-- A word of another primary opcode matches no row. -/
theorem no_row_of_po {w : InstrWord}
    (hpo : w.extractLsb' 26 6 ∉ ([31, 32, 33, 34, 35, 40, 41, 42, 43, 46, 56, 58] : List (BitVec 6))) :
    ∀ r ∈ decodeTable, w &&& r.mask ≠ r.pattern := by
  intro r hr hw
  rw [po_of_matches hr hw] at hpo
  exact hpo (decodeTable_po r hr).2

/-- The rows of primary opcode `po` hold one of the values `vs` in the `n` bits from `lo` on, all of them under the mask. -/
def RowsFixField (po : BitVec 6) (lo n : Nat) (vs : List (BitVec n)) : Prop :=
  ∀ r ∈ decodeTable, r.pattern.extractLsb' 26 6 = po →
    r.mask.extractLsb' lo n = BitVec.allOnes n ∧ r.pattern.extractLsb' lo n ∈ vs

/-- A word with another value in a field that the rows of its primary opcode fix matches no row. -/
theorem no_row_of_field {w : InstrWord} {po : BitVec 6} {lo n : Nat} {vs : List (BitVec n)} (hrows : RowsFixField po lo n vs)
    (hpo : w.extractLsb' 26 6 = po) (hfield : w.extractLsb' lo n ∉ vs) : ∀ r ∈ decodeTable, w &&& r.mask ≠ r.pattern := by
  intro r hr hw
  obtain ⟨hmask, hmem⟩ := hrows r hr ((po_of_matches hr hw).symm.trans hpo)
  rw [field_of_matches hw hmask] at hfield
  exact hfield hmem

/-- The extended opcodes under PO = 31. -/
theorem rowsFixField_31_xo :
    RowsFixField 31 1 10 [21, 23, 53, 55, 87, 119, 279, 311, 341, 343, 373, 375, 532, 534, 790] := by
  unfold RowsFixField
  decide

/-- The extended opcodes under PO = 58. -/
theorem rowsFixField_58_xo : RowsFixField 58 0 2 [0, 1, 2] := by
  unfold RowsFixField
  decide

/-- Bit 0 of the X-Form loads is reserved. -/
theorem rowsFixField_31_reserved : RowsFixField 31 0 1 [0] := by
  unfold RowsFixField
  decide

/-- Bits 3:0 of `lq` are reserved. -/
theorem rowsFixField_56_reserved : RowsFixField 56 0 4 [0] := by
  unfold RowsFixField
  decide

/-! The valid forms (R100). -/

theorem updateWellFormed_iff {rt ra : RegNum} : updateWellFormed rt ra = true ↔ ra ≠ 0 ∧ ra ≠ rt := by
  simp [updateWellFormed]

theorem quadWellFormed_iff {rtp ra : RegNum} : quadWellFormed rtp ra = true ↔ rtp.val % 2 = 0 ∧ rtp ≠ ra := by
  simp [quadWellFormed]

theorem multipleWellFormed_iff {rt ra : RegNum} : multipleWellFormed rt ra = true ↔ ra < rt := by
  simp [multipleWellFormed]

end Sys2Proof

namespace Sys2Proof.Machine

/-! The step at a fetched word (R223), and the faults of invalid forms (R100, R102). -/

/-- A fetched word that decodes is executed, and a fault records the word. -/
theorem step_of_decoded {s : State} {w : InstrWord} {i : Instr} (hend : s.pc ≠ s.platform.endAddr) (hfetch : fetch s = .ok w)
    (hdec : decodeBy s.platform.decodeTable w = .ok i) : step s = recordWord w (exec i s) := by
  simp only [step, if_neg hend, hfetch, withRead, hdec]

/-- A fetched word that matches no row of the configured table is illegal. -/
theorem step_of_no_row {s : State} {w : InstrWord} (hend : s.pc ≠ s.platform.endAddr) (hfetch : fetch s = .ok w)
    (hno : ∀ r ∈ s.platform.decodeTable, w &&& r.mask ≠ r.pattern) : step s = .fault (.illegalInstruction w) := by
  simp only [step, if_neg hend, hfetch, withRead, decodeBy_of_no_row hno, raise]

theorem loadUpdate_of_invalid {w : InstrWord} {n : Nat} {widen : BitVec (8 * n) → Word} {rt ra : RegNum} {ea : Word} {s : State}
    (h : ra = 0 ∨ ra = rt) : loadUpdate w n widen rt ra ea s = .fault (.invalidForm w) :=
  if_pos h

/-- `lq` with RTp = RA is illegal, whether RTp is odd or even. -/
theorem execLq_same (r : RegNum) (dq : BitVec 12) (s : State) : execLq r r dq s = .fault (.illegalInstruction (encode (.lq r r dq))) :=
  if_pos rfl

theorem execLq_of_odd {rtp ra : RegNum} {dq : BitVec 12} {s : State} (hne : rtp ≠ ra) (hodd : rtp.val % 2 = 1) :
    execLq rtp ra dq s = .fault (.invalidForm (encode (.lq rtp ra dq))) := by
  rw [execLq, if_neg hne, if_pos hodd, raise]

theorem execLmw_of_le {rt ra : RegNum} {d : BitVec 16} {s : State} (h : rt ≤ ra) :
    execLmw rt ra d s = .fault (.invalidForm (encode (.lmw rt ra d))) :=
  if_pos h

/-- Every invalid form but `lq` with RTp = RA raises `InvalidForm`. -/
theorem exec_of_not_wf {i : Instr} (hwf : i.wf = false) (hlq : ∀ r dq, i ≠ .lq r r dq) (s : State) :
    exec i s = .fault (.invalidForm (encode i)) := by
  have hbad : ¬ i.wf = true := by simp [hwf]
  cases i with
  | lbz | lbzx | lhz | lhzx | lha | lhax | lwz | lwzx | lwa | lwax | ld | ldx | lhbrx | lwbrx | ldbrx => exact absurd rfl hbad
  | lbzu | lbzux | lhzu | lhzux | lhau | lhaux | lwzu | lwzux | lwaux | ldu | ldux =>
    refine loadUpdate_of_invalid ?_
    by_contra h
    exact hbad (updateWellFormed_iff.2 (not_or.1 h))
  | lq rtp ra dq =>
    have hne : rtp ≠ ra := by
      rintro rfl
      exact hlq rtp dq rfl
    refine execLq_of_odd hne ?_
    by_contra hodd
    exact hbad (quadWellFormed_iff.2 ⟨by omega, hne⟩)
  | lmw => exact execLmw_of_le (not_lt.1 fun h => hbad (multipleWellFormed_iff.2 h))

/-! Displacements (R90 to R92). -/

/-- A field with `m` zero bits appended, sign-extended, is the field times `2 ^ m`. -/
theorem toInt_signExtend_append_zero {n m : Nat} (x : BitVec n) (h : n + m ≤ 64) : ((x ++ 0#m).signExtend 64).toInt = 2 ^ m * x.toInt := by
  rw [BitVec.toInt_signExtend_of_le h, BitVec.toInt_append_zero]

theorem dispD_range (d : BitVec 16) : (dispD d).toInt = d.toInt ∧ -32768 ≤ (dispD d).toInt ∧ (dispD d).toInt ≤ 32767 := by
  have hext : (dispD d).toInt = d.toInt := BitVec.toInt_signExtend_of_le (by decide)
  have hlo := d.le_toInt
  have hhi := d.toInt_lt
  omega

theorem dispDS_range (ds : BitVec 14) :
    (dispDS ds).toInt = 4 * ds.toInt ∧ -32768 ≤ (dispDS ds).toInt ∧ (dispDS ds).toInt ≤ 32764 := by
  have hext : (dispDS ds).toInt = 2 ^ 2 * ds.toInt := toInt_signExtend_append_zero ds (by decide)
  have hlo := ds.le_toInt
  have hhi := ds.toInt_lt
  omega

theorem dispDQ_range (dq : BitVec 12) :
    (dispDQ dq).toInt = 16 * dq.toInt ∧ -32768 ≤ (dispDQ dq).toInt ∧ (dispDQ dq).toInt ≤ 32752 := by
  have hext : (dispDQ dq).toInt = 2 ^ 4 * dq.toInt := toInt_signExtend_append_zero dq (by decide)
  have hlo := dq.le_toInt
  have hhi := dq.toInt_lt
  omega

/-- The field DS with its two zero bits is the low half of the word under the mask of DS. -/
theorem fieldDS_append_zero (w : InstrWord) : fieldDS dsPlaces w ++ 0#2 = w.extractLsb' 0 16 &&& 0xFFFC#16 := by
  apply BitVec.eq_of_getLsbD_eq
  intro i hi
  rw [BitVec.getLsbD_append, BitVec.getLsbD_and]
  interval_cases i <;> simp [fieldDS, dsPlaces]

/-- The field DQ with its four zero bits is the low half of the word under the mask of DQ. -/
theorem fieldDQ_append_zero (w : InstrWord) : fieldDQ dqPlaces w ++ 0#4 = w.extractLsb' 0 16 &&& 0xFFF0#16 := by
  apply BitVec.eq_of_getLsbD_eq
  intro i hi
  rw [BitVec.getLsbD_append, BitVec.getLsbD_and]
  interval_cases i <;> simp [fieldDQ, dqPlaces]

/-! Effective addresses (R93, 70_reset_and_hazards.md R222). -/

/-- With field RA = 0 no register is read. -/
theorem eaDisp_zero (s : State) (disp : Word) : eaDisp s 0 disp = disp := by
  rw [eaDisp, baseOrZero, if_pos rfl]
  exact BitVec.zero_add disp

/-- A displacement in the range of D is an address in the lowest or the highest 2^15 bytes. -/
theorem toNat_of_toInt_range {a : Word} (h : -32768 ≤ a.toInt ∧ a.toInt ≤ 32767) :
    a.toNat < 0x8000 ∨ 0xFFFFFFFFFFFF8000 ≤ a.toNat := by
  rw [BitVec.toInt_eq_toNat_cond] at h
  split at h <;> omega

section IndexedForms

variable {s : State} {ra rb : RegNum} {disp : Word}

theorem eaIndexed_of_reg_eq (h : s.reg rb = disp) : eaIndexed s ra rb = eaDisp s ra disp := by
  rw [eaIndexed, eaDisp, h]

theorem eaIndexedUpdate_of_reg_eq (h : s.reg rb = disp) : eaIndexedUpdate s ra rb = eaDispUpdate s ra disp := by
  rw [eaIndexedUpdate, eaDispUpdate, h]

theorem load_indexed_eq_disp (h : s.reg rb = disp) {n : Nat} {widen : BitVec (8 * n) → Word} {rt : RegNum} :
    load n widen rt (eaIndexed s ra rb) s = load n widen rt (eaDisp s ra disp) s := by
  rw [eaIndexed_of_reg_eq h]

/-- A valid update form does not use its word. -/
theorem loadUpdate_of_valid {w : InstrWord} {n : Nat} {widen : BitVec (8 * n) → Word} {rt : RegNum} {ea : Word} (hzero : ra ≠ 0)
    (hrt : ra ≠ rt) : loadUpdate w n widen rt ra ea s =
      withRead (memRead s ea n) fun v => complete ((s.setReg rt (widen v)).setReg ra ea) :=
  if_neg (not_or.2 ⟨hzero, hrt⟩)

theorem loadUpdate_indexed_eq_disp (h : s.reg rb = disp) {rt : RegNum} (hzero : ra ≠ 0) (hrt : ra ≠ rt) {w w' : InstrWord} {n : Nat}
    {widen : BitVec (8 * n) → Word} :
    loadUpdate w n widen rt ra (eaIndexedUpdate s ra rb) s = loadUpdate w' n widen rt ra (eaDispUpdate s ra disp) s := by
  rw [eaIndexedUpdate_of_reg_eq h, loadUpdate_of_valid hzero hrt, loadUpdate_of_valid hzero hrt]

end IndexedForms

end Sys2Proof.Machine

namespace Sys2Proof.Proofs.Encoding

open Sys2Proof Sys2Proof.Machine Sys2Proof.Safety

/-- Settles O1: the word of an instruction matches its own row and no other, and the row reads the instruction's operands back. -/
theorem decodeOfEncodeIsTheInstruction : Obligations.DecodeOfEncodeIsTheInstruction :=
  decode_encode

/-- Settles O2: what a row reads is encoded with the row's pattern and the word's own bits outside the mask. -/
theorem encodeOfDecodeIsTheWord : Obligations.EncodeOfDecodeIsTheWord :=
  fun _ _ => encode_of_decode

/-- Settles O3: two patterns that one word matches agree under both masks, and those of two rows do not. -/
theorem atMostOneRowMatchesAWord : Obligations.AtMostOneRowMatchesAWord :=
  fun _ _ hr _ hq => row_unique_of_matches hr hq

/-- Settles O7: each listed case is a value of PO or XO that no row has. -/
theorem wordsOutsideTheTableAreIllegal : Obligations.WordsOutsideTheTableAreIllegal := by
  intro s w hend hfetch
  refine ⟨step_of_no_row hend hfetch, fun htable => ?_⟩
  have hillegal (hno : ∀ r ∈ decodeTable, w &&& r.mask ≠ r.pattern) : step s = .fault (.illegalInstruction w) :=
    step_of_no_row hend hfetch (htable ▸ hno)
  refine ⟨fun hpo => hillegal (no_row_of_po hpo), fun hpo hxo => hillegal (no_row_of_field rowsFixField_31_xo hpo hxo), fun hpo hxo => ?_⟩
  refine hillegal (no_row_of_field rowsFixField_58_xo hpo ?_)
  rw [hxo]
  decide

/-- Settles O8: the rows of PO = 31 and of PO = 56 hold their reserved bits at 0. -/
theorem reservedBitsMustBeZero : Obligations.ReservedBitsMustBeZero := by
  intro w hreserved
  have hno : ∀ r ∈ decodeTable, w &&& r.mask ≠ r.pattern := by
    obtain ⟨hpo, hbits⟩ | ⟨hpo, hbits⟩ := hreserved
    · exact no_row_of_field rowsFixField_31_reserved hpo (mt List.mem_singleton.1 hbits)
    · exact no_row_of_field rowsFixField_56_reserved hpo (mt List.mem_singleton.1 hbits)
  exact ⟨hno, fun s htable hend hfetch => step_of_no_row hend hfetch (htable ▸ hno)⟩

/-- Settles O30: the form is tested before anything is read, and the step puts the fetched word into the fault. -/
theorem invalidFormsFaultAtTheStep : Obligations.InvalidFormsFaultAtTheStep := by
  intro s w i hend hfetch hdec
  have hstep := step_of_decoded hend hfetch hdec
  constructor
  · intro hwf hlq
    rw [hstep, exec_of_not_wf hwf hlq]
    rfl
  · rintro r dq rfl
    rw [hstep]
    exact congrArg (recordWord w) (execLq_same r dq s)

/-- Settles O4: each operand field is read back from the word, and so are PO, XO and the reserved bits. -/
theorem formatsPlaceTheirFields : Obligations.FormatsPlaceTheirFields := by
  refine ⟨?_, ?_, ?_, ?_⟩
  · rintro w po rt ra d rfl
    exact ⟨po_dForm .., toNat_of_regField_eq (fieldRT_dForm ..), toNat_of_regField_eq (fieldRA_dForm ..), fieldD_dForm ..⟩
  · rintro w po rt ra ds xo rfl
    exact ⟨po_dsForm .., toNat_of_regField_eq (fieldRT_dsForm ..), toNat_of_regField_eq (fieldRA_dsForm ..), fieldDS_dsForm ..,
      xo_dsForm ..⟩
  · rintro w po rtp ra dq rfl
    exact ⟨po_dqForm .., toNat_of_regField_eq (fieldRT_dqForm ..), toNat_of_regField_eq (fieldRA_dqForm ..), fieldDQ_dqForm ..,
      reserved_dqForm ..⟩
  · rintro w po rt ra rb xo rfl
    exact ⟨po_xForm .., toNat_of_regField_eq (fieldRT_xForm ..), toNat_of_regField_eq (fieldRA_xForm ..),
      toNat_of_regField_eq (fieldRB_xForm ..), xo_xForm .., reserved_xForm ..⟩

/-- Settles O9, from the range of each format and the masked low half of the word. -/
theorem displacementsAreSignExtendedFields : Obligations.DisplacementsAreSignExtendedFields :=
  ⟨dispD_range, dispDS_range, dispDQ_range, fun w =>
    ⟨rfl, congrArg (BitVec.signExtend 64) (fieldDS_append_zero w), congrArg (BitVec.signExtend 64) (fieldDQ_append_zero w)⟩⟩

/-- Settles O31: one clause speaks of each instruction that has an invalid form, and none of the others. -/
theorem validFormsAreThoseOfTheSpec : Obligations.ValidFormsAreThoseOfTheSpec := by
  intro i
  cases i with
  | lbz | lbzx | lhz | lhzx | lha | lhax | lwz | lwzx | lwa | lwax | ld | ldx | lhbrx | lwbrx | ldbrx => simp [Instr.wf]
  | lbzu | lbzux | lhzu | lhzux | lhau | lhaux | lwzu | lwzux | lwaux | ldu | ldux => simp [Instr.wf, updateWellFormed_iff]
  | lq => simp [Instr.wf, quadWellFormed_iff]
  | lmw => simp [Instr.wf, multipleWellFormed_iff]

/-- Settles O41: the two forms have the same effective address, and a valid update form does not use its word. -/
theorem indexedFormsAgreeWithDisplacementForms : Obligations.IndexedFormsAgreeWithDisplacementForms := by
  intro s rt ra rb d ds
  refine ⟨fun h => ?_, fun h => ?_, fun h hzero hrt => ?_, fun h hzero hrt => loadUpdate_indexed_eq_disp h hzero hrt⟩
  · exact ⟨load_indexed_eq_disp h, load_indexed_eq_disp h, load_indexed_eq_disp h, load_indexed_eq_disp h⟩
  · exact ⟨load_indexed_eq_disp h, load_indexed_eq_disp h⟩
  · exact ⟨loadUpdate_indexed_eq_disp h hzero hrt, loadUpdate_indexed_eq_disp h hzero hrt, loadUpdate_indexed_eq_disp h hzero hrt,
      loadUpdate_indexed_eq_disp h hzero hrt⟩

/-- Settles O44: with RA = 0 the address is the displacement, which is in the range of its format. -/
theorem absoluteLoadsReachTheEndsOfStorage : Obligations.AbsoluteLoadsReachTheEndsOfStorage := by
  intro s
  refine ⟨fun d => ⟨eaDisp_zero s _, toNat_of_toInt_range ?_⟩, fun ds => ⟨eaDisp_zero s _, toNat_of_toInt_range ?_⟩,
    fun dq => ⟨eaDisp_zero s _, toNat_of_toInt_range ?_⟩⟩
  · exact (dispD_range d).2
  · obtain ⟨-, hlo, hhi⟩ := dispDS_range ds
    exact ⟨hlo, hhi.trans (by decide)⟩
  · obtain ⟨-, hlo, hhi⟩ := dispDQ_range dq
    exact ⟨hlo, hhi.trans (by decide)⟩

end Sys2Proof.Proofs.Encoding
end

section
/-! PROOFS. The byte loads (40_load_byte.md): what makes an instruction complete with a list of writes, the single-register loads and their
update forms in general, and the four byte loads as instances. -/

namespace Sys2Proof.Machine

/-- The byte at an address, in the byte order of either mode. -/
theorem read_one_eq_memByte (le : Bool) (m : Memory) (a : Word) :
    (if le then memReadLE m a 1 else memReadBE m a 1) = memByte m a := by
  rw [memReadLE_one, memReadBE_one, ite_self]

section Loads

variable {s : State} {i : Instr} {n : Nat} {ea : Word} {v : BitVec (8 * n)}

/-- A next state with the listed values is all that completing asks: the rest is the frame of the instruction. -/
theorem completes_of_next {ws : List (RegNum × Word)} {t : State} (hnext : exec i s = .next t)
    (hregs : Safety.writes i = ws.map Prod.fst) (hvals : ∀ p ∈ ws, t.reg p.1 = p.2) : Safety.Completes i s ws := by
  obtain ⟨hreg, hpc, hle, hmem, hplatform⟩ := exec_frame hnext
  refine ⟨t, hnext, hvals, fun r hr => hreg r ?_, hpc, hle, hplatform, fun a => by rw [hmem]⟩
  rw [hregs, List.mem_map]
  rintro ⟨p, hp, rfl⟩
  exact hr p hp rfl

/-- An instruction that reads once and completes loads with the writes that its next state holds for the value in storage. -/
theorem loadsWith_of_read {ws : List (RegNum × Word)} {next : BitVec (8 * n) → State}
    (hexec : exec i s = withRead (memRead s ea n) fun v => complete (next v)) (hregs : Safety.writes i = ws.map Prod.fst)
    (hread : (if s.le then memReadLE s.mem ea n else memReadBE s.mem ea n) = v) (hvals : ∀ p ∈ ws, (next v).reg p.1 = p.2) :
    Safety.LoadsWith i s ea n ws := by
  constructor
  · intro hadm
    refine completes_of_next (t := (next v).advance) ?_ hregs hvals
    rw [hexec, memRead_of_admitted hadm, hread]
    rfl
  · intro f hmeets
    rw [hexec, memRead_of_meets hmeets]
    rfl

/-- A single-register load without update writes the widened value into RT (R188). -/
theorem loadsWith_of_load {widen : BitVec (8 * n) → Word} {rt : RegNum} (hexec : exec i s = load n widen rt ea s)
    (hregs : Safety.writes i = [rt]) (hread : (if s.le then memReadLE s.mem ea n else memReadBE s.mem ea n) = v) :
    Safety.LoadsWith i s ea n [(rt, widen v)] := by
  refine loadsWith_of_read hexec hregs hread ?_
  simp

/-- A single-register load with update tests the form, and a valid one writes the widened value into RT and the address into RA (R188). -/
theorem updatesWith_of_loadUpdate {widen : BitVec (8 * n) → Word} {rt ra : RegNum}
    (hexec : exec i s = loadUpdate (encode i) n widen rt ra ea s) (hregs : Safety.writes i = [rt, ra])
    (hread : (if s.le then memReadLE s.mem ea n else memReadBE s.mem ea n) = v) :
    Safety.UpdatesWith i s rt ra ea n (widen v) := by
  constructor
  · intro hinvalid
    rw [hexec, loadUpdate_of_invalid hinvalid]
  · intro hzero hrt
    refine loadsWith_of_read (hexec.trans (loadUpdate_of_valid hzero hrt)) hregs hread ?_
    simp [hrt]

end Loads

end Sys2Proof.Machine

namespace Sys2Proof.Proofs.LoadByte

open Sys2Proof Sys2Proof.Machine Sys2Proof.Safety

/-- Settles O15: both forms are the one-byte load at their effective address, and the byte is the same in both modes. -/
theorem loadByteAndZero : Obligations.LoadByteAndZero := by
  intro s rt ra
  refine ⟨fun d => ⟨decode_encode (.lbz rt ra d), ?_⟩, fun rb => ⟨decode_encode (.lbzx rt ra rb), ?_⟩⟩
  · rintro ea rfl
    exact loadsWith_of_load (widen := zext64) rfl rfl (read_one_eq_memByte ..)
  · rintro ea rfl
    exact loadsWith_of_load (widen := zext64) rfl rfl (read_one_eq_memByte ..)

/-- Settles O16: both forms are the one-byte load with update at their effective address. -/
theorem loadByteAndZeroWithUpdate : Obligations.LoadByteAndZeroWithUpdate := by
  intro s rt ra
  refine ⟨fun d => ⟨decode_encode (.lbzu rt ra d), ?_⟩, fun rb => ⟨decode_encode (.lbzux rt ra rb), ?_⟩⟩
  · rintro ea rfl
    exact updatesWith_of_loadUpdate (widen := zext64) rfl rfl (read_one_eq_memByte ..)
  · rintro ea rfl
    exact updatesWith_of_loadUpdate (widen := zext64) rfl rfl (read_one_eq_memByte ..)

end Sys2Proof.Proofs.LoadByte
end

section
/-! PROOFS. The halfword loads (41_load_halfword.md): the halfword at an address in the byte order of each mode, the loads of a halfword with
any widening, and the eight halfword loads as instances. -/

namespace Sys2Proof.Machine

/-! The halfword at an address, its bytes side by side as Safety.lean writes it (R51, R52). -/

theorem bytesAt_two (m : Memory) (a : Word) : bytesAt m a 2 = [memByte m a, memByte m (a + 1)] := by
  simp [bytesAt, List.range_succ, byteAddr]

theorem memReadBE_two (m : Memory) (a : Word) : memReadBE m a 2 = Safety.halfword false m a := by
  apply BitVec.eq_of_toNat_eq
  simp only [memReadBE_toNat, bytesAt_two, Safety.halfword, Bool.false_eq_true, if_false, toNat_append_eq_add, beValue, List.length_cons,
    List.length_nil]
  omega

theorem memReadLE_two (m : Memory) (a : Word) : memReadLE m a 2 = Safety.halfword true m a := by
  apply BitVec.eq_of_toNat_eq
  simp only [memReadLE_toNat, bytesAt_two, Safety.halfword, if_true, toNat_append_eq_add, leValue]
  omega

/-- The halfword at an address in the byte order of the mode. -/
theorem read_two_eq_halfword (le : Bool) (m : Memory) (a : Word) :
    (if le then memReadLE m a 2 else memReadBE m a 2) = Safety.halfword le m a := by
  cases le with
  | false => exact memReadBE_two m a
  | true => exact memReadLE_two m a

section HalfwordLoads

variable {s : State} {i : Instr} {ea : Word} {rt ra : RegNum} (widen : BitVec 16 → Word)

/-- A load of two bytes writes the widened halfword of the mode into RT. -/
theorem loadsWith_halfword (hexec : exec i s = load 2 widen rt ea s) (hregs : Safety.writes i = [rt]) :
    Safety.LoadsWith i s ea 2 [(rt, widen (Safety.halfword s.le s.mem ea))] :=
  loadsWith_of_load hexec hregs (read_two_eq_halfword s.le s.mem ea)

/-- A load of two bytes with update tests the form; a valid one writes the widened halfword of the mode into RT and the address into RA. -/
theorem updatesWith_halfword (hexec : exec i s = loadUpdate (encode i) 2 widen rt ra ea s) (hregs : Safety.writes i = [rt, ra]) :
    Safety.UpdatesWith i s rt ra ea 2 (widen (Safety.halfword s.le s.mem ea)) :=
  updatesWith_of_loadUpdate hexec hregs (read_two_eq_halfword s.le s.mem ea)

end HalfwordLoads

end Sys2Proof.Machine

namespace Sys2Proof.Proofs.LoadHalfword

open Sys2Proof Sys2Proof.Machine Sys2Proof.Safety

/-- Settles O17: both forms are the two-byte load with zero extension at their effective address. -/
theorem loadHalfwordAndZero : Obligations.LoadHalfwordAndZero := by
  intro s rt ra
  refine ⟨fun d => ⟨decode_encode (.lhz rt ra d), ?_⟩, fun rb => ⟨decode_encode (.lhzx rt ra rb), ?_⟩⟩
  · rintro ea rfl
    exact loadsWith_halfword zext64 rfl rfl
  · rintro ea rfl
    exact loadsWith_halfword zext64 rfl rfl

/-- Settles O18: both forms are the two-byte load with zero extension and update at their effective address. -/
theorem loadHalfwordAndZeroWithUpdate : Obligations.LoadHalfwordAndZeroWithUpdate := by
  intro s rt ra
  refine ⟨fun d => ⟨decode_encode (.lhzu rt ra d), ?_⟩, fun rb => ⟨decode_encode (.lhzux rt ra rb), ?_⟩⟩
  · rintro ea rfl
    exact updatesWith_halfword zext64 rfl rfl
  · rintro ea rfl
    exact updatesWith_halfword zext64 rfl rfl

/-- Settles O19: both forms are the two-byte load with sign extension at their effective address; the sign is that of the halfword in the byte
order of the mode. -/
theorem loadHalfwordAlgebraic : Obligations.LoadHalfwordAlgebraic := by
  intro s rt ra
  refine ⟨fun d => ⟨decode_encode (.lha rt ra d), ?_⟩, fun rb => ⟨decode_encode (.lhax rt ra rb), ?_⟩⟩
  · rintro ea rfl
    exact loadsWith_halfword sext64 rfl rfl
  · rintro ea rfl
    exact loadsWith_halfword sext64 rfl rfl

/-- Settles O20: both forms are the two-byte load with sign extension and update at their effective address. -/
theorem loadHalfwordAlgebraicWithUpdate : Obligations.LoadHalfwordAlgebraicWithUpdate := by
  intro s rt ra
  refine ⟨fun d => ⟨decode_encode (.lhau rt ra d), ?_⟩, fun rb => ⟨decode_encode (.lhaux rt ra rb), ?_⟩⟩
  · rintro ea rfl
    exact updatesWith_halfword sext64 rfl rfl
  · rintro ea rfl
    exact updatesWith_halfword sext64 rfl rfl

end Sys2Proof.Proofs.LoadHalfword
end

section
/-! PROOFS. The word loads (42_load_word.md): the loads of a word with any widening, and the seven word loads as instances. -/

namespace Sys2Proof.Machine

section WordLoads

variable {s : State} {i : Instr} {ea : Word} {rt ra : RegNum} (widen : BitVec 32 → Word)

/-- A load of four bytes writes the widened word of the mode into RT. -/
theorem loadsWith_word (hexec : exec i s = load 4 widen rt ea s) (hregs : Safety.writes i = [rt]) :
    Safety.LoadsWith i s ea 4 [(rt, widen (Safety.word s.le s.mem ea))] :=
  loadsWith_of_load hexec hregs (read_four_eq_word s.le s.mem ea)

/-- A load of four bytes with update tests the form; a valid one writes the widened word of the mode into RT and the address into RA. -/
theorem updatesWith_word (hexec : exec i s = loadUpdate (encode i) 4 widen rt ra ea s) (hregs : Safety.writes i = [rt, ra]) :
    Safety.UpdatesWith i s rt ra ea 4 (widen (Safety.word s.le s.mem ea)) :=
  updatesWith_of_loadUpdate hexec hregs (read_four_eq_word s.le s.mem ea)

end WordLoads

end Sys2Proof.Machine

namespace Sys2Proof.Proofs.LoadWord

open Sys2Proof Sys2Proof.Machine Sys2Proof.Safety

/-- Settles O21: both forms are the four-byte load with zero extension at their effective address. -/
theorem loadWordAndZero : Obligations.LoadWordAndZero := by
  intro s rt ra
  refine ⟨fun d => ⟨decode_encode (.lwz rt ra d), ?_⟩, fun rb => ⟨decode_encode (.lwzx rt ra rb), ?_⟩⟩
  · rintro ea rfl
    exact loadsWith_word zext64 rfl rfl
  · rintro ea rfl
    exact loadsWith_word zext64 rfl rfl

/-- Settles O22: both forms are the four-byte load with zero extension and update at their effective address. -/
theorem loadWordAndZeroWithUpdate : Obligations.LoadWordAndZeroWithUpdate := by
  intro s rt ra
  refine ⟨fun d => ⟨decode_encode (.lwzu rt ra d), ?_⟩, fun rb => ⟨decode_encode (.lwzux rt ra rb), ?_⟩⟩
  · rintro ea rfl
    exact updatesWith_word zext64 rfl rfl
  · rintro ea rfl
    exact updatesWith_word zext64 rfl rfl

/-- Settles O23: both forms are the four-byte load with sign extension at their effective address, `lwa` with the displacement of the
DS-Form; the sign is that of the word in the byte order of the mode. -/
theorem loadWordAlgebraic : Obligations.LoadWordAlgebraic := by
  intro s rt ra
  refine ⟨fun ds => ⟨decode_encode (.lwa rt ra ds), ?_⟩, fun rb => ⟨decode_encode (.lwax rt ra rb), ?_⟩⟩
  · rintro ea rfl
    exact loadsWith_word sext64 rfl rfl
  · rintro ea rfl
    exact loadsWith_word sext64 rfl rfl

/-- Settles O24: `lwaux`, the only form of this load with update, is the four-byte load with sign extension and update at its effective
address. -/
theorem loadWordAlgebraicWithUpdateIndexed : Obligations.LoadWordAlgebraicWithUpdateIndexed := by
  intro s rt ra rb
  refine ⟨decode_encode (.lwaux rt ra rb), ?_⟩
  rintro ea rfl
  exact updatesWith_word sext64 rfl rfl

end Sys2Proof.Proofs.LoadWord
end

section
/-! PROOFS. The doubleword loads (43_load_doubleword.md): the doubleword at an address in the byte order of each mode, the loads of a
doubleword with any widening, and the four doubleword loads as instances. -/

namespace Sys2Proof.Machine

/-! The doubleword at an address: its two words side by side, the word at the lower address the high half in Big-Endian mode and the low half
in Little-Endian mode (R51, R52). -/

theorem memReadBE_eight (m : Memory) (a : Word) : memReadBE m a 8 = Safety.doubleword false m a := by
  apply BitVec.eq_of_toNat_eq
  calc (memReadBE m a 8).toNat
      = (memReadBE m a 4).toNat * 256 ^ 4 + (memReadBE m (a + 4) 4).toNat := memReadBE_toNat_add m a 4 4
    _ = (Safety.doubleword false m a).toNat := by
      rw [memReadBE_four, memReadBE_four, Safety.doubleword, if_neg Bool.false_ne_true, toNat_append_eq_add, ← two_pow_eight_mul]

theorem memReadLE_eight (m : Memory) (a : Word) : memReadLE m a 8 = Safety.doubleword true m a := by
  apply BitVec.eq_of_toNat_eq
  calc (memReadLE m a 8).toNat
      = (memReadLE m a 4).toNat + 256 ^ 4 * (memReadLE m (a + 4) 4).toNat := memReadLE_toNat_add m a 4 4
    _ = (Safety.doubleword true m a).toNat := by
      rw [memReadLE_four, memReadLE_four, Safety.doubleword, if_pos rfl, toNat_append_eq_add, ← two_pow_eight_mul, add_comm, mul_comm]

/-- The doubleword at an address in the byte order of the mode. -/
theorem read_eight_eq_doubleword (le : Bool) (m : Memory) (a : Word) :
    (if le then memReadLE m a 8 else memReadBE m a 8) = Safety.doubleword le m a := by
  cases le with
  | false => exact memReadBE_eight m a
  | true => exact memReadLE_eight m a

section DoublewordLoads

variable {s : State} {i : Instr} {ea : Word} {rt ra : RegNum} (widen : BitVec 64 → Word)

/-- A load of eight bytes writes the doubleword of the mode, as `widen` maps it, into RT. -/
theorem loadsWith_doubleword (hexec : exec i s = load 8 widen rt ea s) (hregs : Safety.writes i = [rt]) :
    Safety.LoadsWith i s ea 8 [(rt, widen (Safety.doubleword s.le s.mem ea))] :=
  loadsWith_of_load hexec hregs (read_eight_eq_doubleword s.le s.mem ea)

/-- A load of eight bytes with update tests the form; a valid one writes the doubleword of the mode, as `widen` maps it, into RT and the
address into RA. -/
theorem updatesWith_doubleword (hexec : exec i s = loadUpdate (encode i) 8 widen rt ra ea s) (hregs : Safety.writes i = [rt, ra]) :
    Safety.UpdatesWith i s rt ra ea 8 (widen (Safety.doubleword s.le s.mem ea)) :=
  updatesWith_of_loadUpdate hexec hregs (read_eight_eq_doubleword s.le s.mem ea)

end DoublewordLoads

end Sys2Proof.Machine

namespace Sys2Proof.Proofs.LoadDoubleword

open Sys2Proof Sys2Proof.Machine Sys2Proof.Safety

/-- Settles O25: both forms are the eight-byte load, which widens nothing, at their effective address, `ld` with the displacement of the
DS-Form. -/
theorem loadDoubleword : Obligations.LoadDoubleword := by
  intro s rt ra
  refine ⟨fun ds => ⟨decode_encode (.ld rt ra ds), ?_⟩, fun rb => ⟨decode_encode (.ldx rt ra rb), ?_⟩⟩
  · rintro ea rfl
    exact loadsWith_doubleword id rfl rfl
  · rintro ea rfl
    exact loadsWith_doubleword id rfl rfl

/-- Settles O26: both forms are the eight-byte load with update, which widens nothing, at their effective address. -/
theorem loadDoublewordWithUpdate : Obligations.LoadDoublewordWithUpdate := by
  intro s rt ra
  refine ⟨fun ds => ⟨decode_encode (.ldu rt ra ds), ?_⟩, fun rb => ⟨decode_encode (.ldux rt ra rb), ?_⟩⟩
  · rintro ea rfl
    exact updatesWith_doubleword id rfl rfl
  · rintro ea rfl
    exact updatesWith_doubleword id rfl rfl

end Sys2Proof.Proofs.LoadDoubleword
end

section
/-! PROOFS. The quadword load (44_load_quadword.md): the two doublewords of a quadword in the byte order of each mode, what a valid `lq` loads,
the two displacements of the `ld` pair that covers it, and the statements about `lq`. -/

namespace Sys2Proof.Machine

/-! The halves of the quadword at an address. The doubleword at the address itself is the high half in Big-Endian mode and the low half in
Little-Endian mode (R51, R162). -/

theorem read_sixteen_high (le : Bool) (m : Memory) (a : Word) :
    (if le then memReadLE m a 16 else memReadBE m a 16).extractLsb' 64 64 = Safety.doubleword le m (if le then a + 8 else a) := by
  cases le with
  | false => exact (memReadBE_high m a 8 8).trans (memReadBE_eight m a)
  | true => exact (memReadLE_high m a 8 8).trans (memReadLE_eight m (a + 8))

theorem read_sixteen_low (le : Bool) (m : Memory) (a : Word) :
    (if le then memReadLE m a 16 else memReadBE m a 16).extractLsb' 0 64 = Safety.doubleword le m (if le then a else a + 8) := by
  cases le with
  | false => exact (memReadBE_low m a 8 8).trans (memReadBE_eight m (a + 8))
  | true => exact (memReadLE_low m a 8 8).trans (memReadLE_eight m a)

/-- The registers of a pair differ. -/
theorem ne_oddOfPair (rtp : RegNum) : rtp ≠ oddOfPair rtp :=
  left_ne_add.2 (by decide)

/-- A pair that was written holds both values: neither write undoes the other. -/
theorem reg_of_pair_written (s : State) (rtp : RegNum) (v w : Word) :
    ((s.setReg rtp v).setReg (oddOfPair rtp) w).reg rtp = v ∧ ((s.setReg rtp v).setReg (oddOfPair rtp) w).reg (rtp + 1) = w := by
  constructor
  · rw [State.reg_setReg_ne _ _ _ _ (ne_oddOfPair rtp).symm, State.reg_setReg_same]
  · exact State.reg_setReg_same ..

/-- An instruction with one access that completes met no fault, so its registers hold the listed values. -/
theorem reg_of_loadsWith {i : Instr} {s t : State} {ea : Word} {n : Nat} {ws : List (RegNum × Word)}
    (hloads : Safety.LoadsWith i s ea n ws) (h : exec i s = .next t) : ∀ p ∈ ws, t.reg p.1 = p.2 := by
  obtain ⟨hadmitted, hfaults⟩ := hloads
  cases hcheck : check s ea n with
  | none =>
    obtain ⟨t', ht', hvals, -⟩ := hadmitted (admitted_iff_check.2 hcheck)
    cases ht'.symm.trans h
    exact hvals
  | some f => cases (hfaults f (meets_iff_check.2 hcheck)).symm.trans h

section QuadwordLoad

variable {s t : State} {rtp ra : RegNum} {dq : BitVec 12}

theorem execLq_of_valid (hne : rtp ≠ ra) (heven : rtp.val % 2 = 0) :
    execLq rtp ra dq s = withRead (memRead s (eaDisp s ra (dispDQ dq)) 16) fun q =>
      complete ((s.setReg rtp (q.extractLsb' 64 64)).setReg (oddOfPair rtp) (q.extractLsb' 0 64)) := by
  rw [execLq, if_neg hne, if_neg (by omega)]

/-- A valid `lq` loads the pair with the two doublewords of the quadword, in the order of the mode (R160, R162). -/
theorem loadsWith_lq (hne : rtp ≠ ra) (heven : rtp.val % 2 = 0) {ea : Word} (hea : ea = eaDisp s ra (dispDQ dq)) :
    Safety.LoadsWith (.lq rtp ra dq) s ea 16
      [(rtp, Safety.doubleword s.le s.mem (if s.le then ea + 8 else ea)),
        (rtp + 1, Safety.doubleword s.le s.mem (if s.le then ea else ea + 8))] := by
  subst hea
  refine loadsWith_of_read (execLq_of_valid hne heven) rfl rfl ?_
  rw [read_sixteen_high, read_sixteen_low]
  simpa using reg_of_pair_written s rtp _ _

/-- The pair of an `lq` that completes: such an `lq` is a valid form. -/
theorem reg_of_lq_eq_next (h : exec (.lq rtp ra dq) s = .next t) {ea : Word} (hea : ea = eaDisp s ra (dispDQ dq)) :
    t.reg rtp = Safety.doubleword s.le s.mem (if s.le then ea + 8 else ea) ∧
      t.reg (rtp + 1) = Safety.doubleword s.le s.mem (if s.le then ea else ea + 8) := by
  obtain ⟨hne, hodd, -⟩ := execLq_eq_next h
  simpa using reg_of_loadsWith (loadsWith_lq hne (by omega) hea) h

theorem reg_of_ld_eq_next {rt : RegNum} {ds : BitVec 14} (h : exec (.ld rt ra ds) s = .next t) :
    t.reg rt = Safety.doubleword s.le s.mem (eaDisp s ra (dispDS ds)) :=
  reg_of_loadsWith (loadsWith_doubleword id rfl rfl) h _ (List.mem_singleton_self _)

/-- A DS field that is a DQ field and two more bits is a displacement that many words further on (R91, R92). -/
theorem dispDS_append (dq : BitVec 12) (k : BitVec 2) : dispDS (dq ++ k) = dispDQ dq + BitVec.ofNat 64 (4 * k.toNat) := by
  apply BitVec.eq_of_toInt_eq
  have hk := k.isLt
  obtain ⟨hds, -, -⟩ := dispDS_range (dq ++ k)
  obtain ⟨hdq, hlo, hhi⟩ := dispDQ_range dq
  have happend : (dq ++ k).toInt = 2 ^ 2 * dq.toInt + k.toNat := BitVec.toInt_append
  have hofNat : (BitVec.ofNat 64 (4 * k.toNat)).toInt = 4 * k.toNat := by
    rw [BitVec.toInt_ofNat', Int.bmod_eq_of_le] <;> omega
  rw [BitVec.toInt_add, Int.bmod_eq_of_le] <;> omega

theorem eaDisp_dispDS_append (k : BitVec 2) :
    eaDisp s ra (dispDS (dq ++ k)) = eaDisp s ra (dispDQ dq) + BitVec.ofNat 64 (4 * k.toNat) := by
  rw [eaDisp, eaDisp, dispDS_append, BitVec.add_assoc]

end QuadwordLoad

end Sys2Proof.Machine

namespace Sys2Proof.Proofs.LoadQuadword

open Sys2Proof Sys2Proof.Machine Sys2Proof.Safety

/-- Settles O27: the tests of the form in their order, and for a valid form the pair in the order of the mode. -/
theorem loadQuadword : Obligations.LoadQuadword := by
  intro s rtp ra dq
  refine ⟨decode_encode (.lq rtp ra dq), ?_, execLq_of_odd, ?_⟩
  · rintro rfl
    exact execLq_same rtp dq s
  · intro hne heven ea hea
    have hloads := loadsWith_lq hne heven hea
    constructor
    · intro hle
      simpa [hle] using hloads
    · intro hle
      simpa [hle] using hloads

/-- Settles O42: the two `ld` read at EA and EA + 8, the addresses of the doublewords that `lq` puts into its pair. -/
theorem quadwordIsTwoDoublewords : Obligations.QuadwordIsTwoDoublewords := by
  intro s t t0 t8 rtp ra dq hlq hld0 hld8
  obtain ⟨heven, hodd⟩ := reg_of_lq_eq_next hlq rfl
  have hat0 : t0.reg rtp = doubleword s.le s.mem (eaDisp s ra (dispDQ dq)) := by
    simpa [eaDisp_dispDS_append] using reg_of_ld_eq_next hld0
  have hat8 : t8.reg rtp = doubleword s.le s.mem (eaDisp s ra (dispDQ dq) + 8) := by
    simpa [eaDisp_dispDS_append] using reg_of_ld_eq_next hld8
  rw [heven, hodd, hat0, hat8]
  constructor
  · intro hle
    simp [hle]
  · intro hle
    simp [hle]

end Sys2Proof.Proofs.LoadQuadword
end

section
/-! PROOFS. The loads with byte reversal (45_load_byte_reverse.md): the bytes of a value in the opposite order, written side by side; a load in
the other byte-order mode, which is the load with its bytes reversed; and the three byte-reverse loads. -/

namespace Sys2Proof

/-! The bytes of a value in the opposite order (R170). -/

theorem reverseBytes_toNat (n : Nat) (v : BitVec (8 * n)) : (reverseBytes n v).toNat = beValue (bytesLE n v) :=
  assemble_toNat false (length_bytesLE n v)

/-- Reversing the bytes twice gives the value back: the bytes, least significant first, are the Little-Endian layout of the value. -/
theorem reverseBytes_reverseBytes (n : Nat) (v : BitVec (8 * n)) : reverseBytes n (reverseBytes n v) = v := by
  calc reverseBytes n (reverseBytes n v)
      = assemble true n (bytesLE n v) := reverseBytes_assemble_false (length_bytesLE n v)
    _ = v := assemble_layout true n v

/-- The slices of R171. -/
theorem reverseBytes_two (v : BitVec 16) : reverseBytes 2 v = v.extractLsb' 0 8 ++ v.extractLsb' 8 8 := by
  apply BitVec.eq_of_toNat_eq
  have hbytes : bytesLE 2 v = [v.extractLsb' 0 8, v.extractLsb' 8 8] := rfl
  simp only [reverseBytes_toNat, hbytes, beValue, List.length_cons, List.length_nil, Machine.toNat_append_eq_add]
  omega

/-- The slices of R172. -/
theorem reverseBytes_four (v : BitVec 32) :
    reverseBytes 4 v = v.extractLsb' 0 8 ++ v.extractLsb' 8 8 ++ v.extractLsb' 16 8 ++ v.extractLsb' 24 8 := by
  apply BitVec.eq_of_toNat_eq
  have hbytes : bytesLE 4 v = [v.extractLsb' 0 8, v.extractLsb' 8 8, v.extractLsb' 16 8, v.extractLsb' 24 8] := rfl
  simp only [reverseBytes_toNat, hbytes, beValue, List.length_cons, List.length_nil, Machine.toNat_append_eq_add]
  omega

/-- The slices of R173. -/
theorem reverseBytes_eight (v : BitVec 64) :
    reverseBytes 8 v = v.extractLsb' 0 8 ++ v.extractLsb' 8 8 ++ v.extractLsb' 16 8 ++ v.extractLsb' 24 8 ++
      v.extractLsb' 32 8 ++ v.extractLsb' 40 8 ++ v.extractLsb' 48 8 ++ v.extractLsb' 56 8 := by
  apply BitVec.eq_of_toNat_eq
  have hbytes : bytesLE 8 v = [v.extractLsb' 0 8, v.extractLsb' 8 8, v.extractLsb' 16 8, v.extractLsb' 24 8,
    v.extractLsb' 32 8, v.extractLsb' 40 8, v.extractLsb' 48 8, v.extractLsb' 56 8] := rfl
  simp only [reverseBytes_toNat, hbytes, beValue, List.length_cons, List.length_nil, Machine.toNat_append_eq_add]
  omega

end Sys2Proof

namespace Sys2Proof.Machine

/-! A load in the other byte-order mode (R170). -/

/-- The value read in the other byte order is the value read in this one, its bytes reversed. -/
theorem readInMode_not (le : Bool) (m : Memory) (a : Word) (n : Nat) :
    (if !le then memReadLE m a n else memReadBE m a n) = reverseBytes n (if le then memReadLE m a n else memReadBE m a n) := by
  have hLE := memReadLE_eq_reverseBytes m a n
  cases le with
  | false => exact hLE
  | true =>
    calc memReadBE m a n
        = reverseBytes n (reverseBytes n (memReadBE m a n)) := (reverseBytes_reverseBytes ..).symm
      _ = reverseBytes n (memReadLE m a n) := by rw [hLE]

@[simp] theorem otherMode_otherMode (s : State) : Safety.otherMode (Safety.otherMode s) = s := by
  simp [Safety.otherMode]

@[simp] theorem otherModeOut_otherModeOut (o : Out) : Safety.otherModeOut (Safety.otherModeOut o) = o := by
  cases o with
  | next t => simp [Safety.otherModeOut]
  | fault f => rfl
  | refused r => rfl

section OtherMode

variable {s : State} {n : Nat} {widen : BitVec (8 * n) → Word} {rt : RegNum} {ea : Word}

/-- The mode does not matter to the check of an access, and turns the value of an admitted one about. -/
theorem memRead_otherMode (a : Word) (n : Nat) : memRead (Safety.otherMode s) a n = (memRead s a n).map (reverseBytes n) := by
  have hsame : check (Safety.otherMode s) a n = check s a n := rfl
  cases hcheck : check s a n with
  | none =>
    rw [memRead_of_check_none hcheck, memRead_of_check_none (hsame.trans hcheck)]
    exact congrArg Except.ok (readInMode_not s.le s.mem a n)
  | some f =>
    rw [memRead_of_check_some hcheck, memRead_of_check_some (hsame.trans hcheck)]
    rfl

theorem withRead_map {α β : Type} (r : Except Fault α) (g : α → β) (k : β → Out) :
    withRead (r.map g) k = withRead r fun v => k (g v) := by
  cases r with
  | error f => rfl
  | ok v => rfl

/-- A load in the other mode is, up to the mode, the load that reverses the bytes first. -/
theorem load_otherMode :
    load n widen rt ea (Safety.otherMode s) = Safety.otherModeOut (load n (fun v => widen (reverseBytes n v)) rt ea s) := by
  unfold load
  rw [memRead_otherMode, withRead_map]
  exact withRead_otherModeOut fun _ => rfl

/-- A load that reverses the bytes is, up to the mode, the plain load in the other mode. -/
theorem load_reverseBytes :
    load n (fun v => widen (reverseBytes n v)) rt ea s = Safety.otherModeOut (load n widen rt ea (Safety.otherMode s)) := by
  rw [load_otherMode, otherModeOut_otherModeOut]

end OtherMode

end Sys2Proof.Machine

namespace Sys2Proof.Proofs.LoadByteReverse

open Sys2Proof Sys2Proof.Machine Sys2Proof.Safety

/-- Settles O28: each is the load of its size at the indexed address that reverses the bytes and then zero-extends, and the reversed bytes are
the slices in the opposite order. -/
theorem loadByteReverseIndexed : Obligations.LoadByteReverseIndexed := by
  rintro s rt ra rb ea rfl
  refine ⟨⟨decode_encode (.lhbrx rt ra rb), ?_⟩, ⟨decode_encode (.lwbrx rt ra rb), ?_⟩, decode_encode (.ldbrx rt ra rb), ?_⟩
  · rintro v rfl
    rw [← reverseBytes_two]
    exact loadsWith_halfword (fun v => zext64 (reverseBytes 2 v)) rfl rfl
  · rintro v rfl
    rw [← reverseBytes_four]
    exact loadsWith_word (fun v => zext64 (reverseBytes 4 v)) rfl rfl
  · rintro v rfl
    rw [← reverseBytes_eight]
    exact loadsWith_doubleword (reverseBytes 8) rfl rfl

/-- Settles O38: the effective address does not depend on the mode, and the plain load in the other mode has its bytes reversed. -/
theorem byteReverseLoadsReadInTheOtherMode : Obligations.ByteReverseLoadsReadInTheOtherMode :=
  fun _ _ _ _ => ⟨load_reverseBytes, load_reverseBytes, load_reverseBytes (n := 8) (widen := id)⟩

end Sys2Proof.Proofs.LoadByteReverse
end

section
/-! PROOFS. Load Multiple Word (46_load_multiple.md): the reads of consecutive words, all admitted or faulting at the first word that meets a
fault, what `lmw` does in each mode, and the register contents it gives. -/

namespace Sys2Proof.Machine

section ConsecutiveWords

variable {s : State} {a : Word} {n : Nat}

/-- Consecutive words, each of them admitted, are all read. -/
theorem readWords_of_admitted (hadm : ∀ k < n, Safety.Admitted s (byteAddr a (4 * k)) 4) : ∃ vs, readWords s a n = .ok vs := by
  cases hread : readWords s a n with
  | ok vs => exact ⟨vs, rfl⟩
  | error f =>
    obtain ⟨k, hk, herr⟩ := readWords_eq_error hread
    cases (memRead_of_admitted (hadm k hk)).symm.trans herr

/-- Consecutive words that meet a fault answer that of the first word which meets one: the words are read in ascending order. -/
theorem readWords_of_first_fault {k : Nat} {f : Fault} (hk : k < n) (hbefore : ∀ j < k, Safety.Admitted s (byteAddr a (4 * j)) 4)
    (hmeets : Safety.Meets s (byteAddr a (4 * k)) 4 f) : readWords s a n = .error f := by
  induction n generalizing a k with
  | zero => exact absurd hk (Nat.not_lt_zero k)
  | succ n ih =>
    cases k with
    | zero =>
      have hread : memRead s a 4 = .error f := by simpa [byteAddr] using memRead_of_meets hmeets
      simp only [readWords, hread]
    | succ k =>
      have hfirst : Safety.Admitted s a 4 := by simpa [byteAddr] using hbefore 0 (Nat.succ_pos k)
      have hshift (j : Nat) : byteAddr a (4 * (j + 1)) = byteAddr (a + 4) (4 * j) := by
        rw [Nat.mul_add, Nat.add_comm, ← byteAddr_add]
        rfl
      have hrest : readWords s (a + 4) n = .error f := by
        refine ih (k := k) (by omega) (fun j hj => ?_) (hshift k ▸ hmeets)
        exact hshift j ▸ hbefore (j + 1) (by omega)
      simp only [readWords, memRead_of_admitted hfirst, hrest]

/-- In Big-Endian mode, word `k` of consecutive words that were read is the one `4 * k` bytes on (R180). -/
theorem getElem_of_readWords_eq_ok (hle : s.le = false) {vs : List (BitVec 32)} (hvs : readWords s a n = .ok vs) {k : Nat}
    (hk : k < vs.length) : vs[k] = Safety.word false s.mem (byteAddr a (4 * k)) := by
  obtain ⟨-, hread⟩ := readWords_eq_ok hvs
  obtain ⟨-, hval⟩ := memRead_eq_ok (hread k hk)
  rw [hval, read_four_eq_word, hle]
  rfl

end ConsecutiveWords

section LoadMultiple

variable {s t : State} {rt ra : RegNum} {d : BitVec 16}

theorem execLmw_of_littleEndian (hlt : ra < rt) (hle : s.le = true) :
    execLmw rt ra d s = .fault (.alignment (.word (encode (.lmw rt ra d)))) := by
  rw [execLmw, if_neg (not_le.2 hlt), if_pos hle, raise]

theorem execLmw_of_bigEndian (hlt : ra < rt) (hle : s.le = false) :
    execLmw rt ra d s = withRead (readWords s (eaDisp s ra (dispD d)) (32 - rt.val)) fun vs =>
      complete (s.setRegsFrom rt.val (vs.map zext64)) := by
  rw [execLmw, if_neg (not_le.2 hlt), if_neg (by simp [hle])]

/-- Each register from RT on, after an `lmw` that completes: the word as many words on as the register is above RT, zero-extended. -/
theorem reg_of_lmw_eq_next (h : exec (.lmw rt ra d) s = .next t) {r : RegNum} (hr : rt ≤ r) :
    t.reg r = zext64 (Safety.word false s.mem (byteAddr (eaDisp s ra (dispD d)) (4 * (r.val - rt.val)))) := by
  obtain ⟨-, hle, vs, hvs, rfl⟩ := execLmw_eq_next h
  obtain ⟨hlen, -⟩ := readWords_eq_ok hvs
  have hrt : rt.val ≤ r.val := hr
  have hk : r.val - rt.val < vs.length := by omega
  rw [State.advance_reg, State.reg_setRegsFrom_at _ s rt.val r (r.val - rt.val) (by simpa using hk) (by omega), List.getElem_map,
    getElem_of_readWords_eq_ok hle hvs hk]

/-- `lwzx` with RA = 0 that completes gives RT the word at the address in RB, zero-extended. -/
theorem reg_of_lwzx_zero_eq_next {rb : RegNum} (h : exec (.lwzx rt 0 rb) s = .next t) :
    t.reg rt = zext64 (Safety.word s.le s.mem (s.reg rb)) := by
  have hea : eaIndexed s 0 rb = s.reg rb := (eaIndexed_of_reg_eq rfl).trans (eaDisp_zero s _)
  rw [← hea]
  exact reg_of_loadsWith (loadsWith_word zext64 rfl rfl) h _ (List.mem_singleton_self _)

end LoadMultiple

end Sys2Proof.Machine

namespace Sys2Proof.Proofs.LoadMultiple

open Sys2Proof Sys2Proof.Machine Sys2Proof.Safety

/-- Settles O29: the two tests in their order, and in Big-Endian mode the reads of all words, whose values or first fault decide the
outcome. -/
theorem loadMultipleWord : Obligations.LoadMultipleWord := by
  intro s rt ra d
  refine ⟨decode_encode (.lmw rt ra d), execLmw_of_le, execLmw_of_littleEndian, ?_⟩
  rintro hlt hle ea rfl
  have hexec := execLmw_of_bigEndian (d := d) hlt hle
  constructor
  · intro hadm
    obtain ⟨vs, hvs⟩ := readWords_of_admitted hadm
    have hnext : exec (.lmw rt ra d) s = .next (s.setRegsFrom rt.val (vs.map zext64)).advance :=
      hexec.trans (congrArg (withRead · _) hvs)
    obtain ⟨hreg, hpc, hle', hmem, hplatform⟩ := exec_frame hnext
    refine ⟨_, hnext, fun r hr => reg_of_lmw_eq_next hnext hr, fun r hr => hreg r ?_, hpc, hle', hplatform, fun a => by rw [hmem]⟩
    simpa [writes] using hr
  · intro k hk hbefore f hmeets
    exact hexec.trans (congrArg (withRead · _) (readWords_of_first_fault hk hbefore hmeets))

/-- Settles O43: writing the index register leaves the mode and storage as they were, so both read the word at one address, and an `lmw` that
completes reads in Big-Endian mode. -/
theorem multipleIsWordsOneByOne : Obligations.MultipleIsWordsOneByOne := by
  rintro s t u v rt ra r q d hlmw hr rfl hlwzx
  obtain ⟨-, hle, -⟩ := execLmw_eq_next hlmw
  rw [reg_of_lmw_eq_next hlmw hr, reg_of_lwzx_zero_eq_next hlwzx, State.setReg_le, State.setReg_mem, State.reg_setReg_same, hle]
  rfl

end Sys2Proof.Proofs.LoadMultiple
end

section
/-! PROOFS. The common semantics (47_common_semantics.md): the pseudocode of R188 is the plain load or the update load, each row of the
table R187 describes its instruction, and an update form adds the write of its base register to the form without update. -/

namespace Sys2Proof.Machine

/-! The scheme of R188 and the two single-register loads. -/

section Scheme

variable {w : InstrWord} {a : LoadShape} {s : State}

/-- Without update the pseudocode tests no form and writes RT alone. -/
theorem schemeExec_eq_load (hupdate : a.update = false) :
    schemeExec w a s = load a.size (schemeValue a) a.rt (schemeBase a s + schemeOffset a s) s := by
  simp only [schemeExec, load, hupdate, Bool.false_eq_true, false_and, if_false]
  cases memRead s (schemeBase a s + schemeOffset a s) a.size <;> rfl

/-- With update the pseudocode tests the form first and writes RT and then RA. -/
theorem schemeExec_eq_loadUpdate (hupdate : a.update = true) :
    schemeExec w a s = loadUpdate w a.size (schemeValue a) a.rt a.ra (schemeBase a s + schemeOffset a s) s := by
  simp only [schemeExec, loadUpdate, hupdate, true_and, if_true]
  cases memRead s (schemeBase a s + schemeOffset a s) a.size <;> rfl

/-- A doubleword fills the register: its row of R187 has no widening. -/
theorem schemeValue_doubleword (update reversed : Bool) (rt ra : RegNum) (offset : Offset) :
    schemeValue ⟨8, .none, update, reversed, rt, ra, offset⟩ = fun v => if reversed then reverseBytes 8 v else v :=
  funext fun _ => BitVec.setWidth_eq _

/-- Each row of R187 has the size, the widening, the order of bytes, the update and the operand form of its instruction. -/
theorem exec_eq_schemeExec {i : Instr} (hshape : shapeOf i = some a) : exec i s = schemeExec (encode i) a s := by
  cases i with
  | lbz | lbzx | lhz | lhzx | lha | lhax | lwz | lwzx | lwa | lwax | lhbrx | lwbrx =>
    cases hshape
    rw [schemeExec_eq_load rfl]
    rfl
  | ld | ldx | ldbrx =>
    cases hshape
    rw [schemeExec_eq_load rfl, schemeValue_doubleword]
    rfl
  | lbzu | lbzux | lhzu | lhzux | lhau | lhaux | lwzu | lwzux | lwaux =>
    cases hshape
    rw [schemeExec_eq_loadUpdate rfl]
    rfl
  | ldu | ldux =>
    cases hshape
    rw [schemeExec_eq_loadUpdate rfl, schemeValue_doubleword]
    rfl
  | lq | lmw => cases hshape

end Scheme

/-! A valid update form beside the form without update. -/

section BaseWrite

variable {s : State} {rt ra : RegNum} {w : InstrWord} {n : Nat} {widen : BitVec (8 * n) → Word}

/-- Where field RA is not 0, the base of a form without update is x[RA]. -/
theorem baseOrZero_of_ne_zero (hzero : ra ≠ 0) : baseOrZero s ra = s.reg ra :=
  if_neg hzero

/-- The outcome `o'` is the outcome `o` with, in addition, `v` written to register `r` of a next state. -/
def AddsWrite (r : RegNum) (v : Word) (o o' : Out) : Prop :=
  (∀ t, o = .next t → o' = .next (t.setReg r v)) ∧ ∀ f, o = .fault f → o' = .fault f

/-- A valid update load makes the read of the plain load at the same address, and writes that address to RA. -/
theorem addsWrite_load_loadUpdate (hzero : ra ≠ 0) (hrt : ra ≠ rt) (ea : Word) :
    AddsWrite ra ea (load n widen rt ea s) (loadUpdate w n widen rt ra ea s) := by
  rw [loadUpdate_of_valid hzero hrt]
  constructor
  · intro t hnext
    obtain ⟨v, hread, rfl⟩ := load_eq_next hnext
    rw [hread]
    rfl
  · intro f hfault
    rw [load_eq_fault hfault]
    rfl

/-- A displacement form: with RA not 0 both addresses are x[RA] plus the displacement. -/
theorem addsWrite_disp (hzero : ra ≠ 0) (hrt : ra ≠ rt) (disp : Word) :
    AddsWrite ra (s.reg ra + disp) (load n widen rt (eaDisp s ra disp) s) (loadUpdate w n widen rt ra (eaDispUpdate s ra disp) s) := by
  rw [eaDisp, baseOrZero_of_ne_zero hzero]
  exact addsWrite_load_loadUpdate hzero hrt _

/-- An indexed form: with RA not 0 both addresses are x[RA] + x[RB]. -/
theorem addsWrite_indexed (hzero : ra ≠ 0) (hrt : ra ≠ rt) (rb : RegNum) :
    AddsWrite ra (s.reg ra + s.reg rb) (load n widen rt (eaIndexed s ra rb) s)
      (loadUpdate w n widen rt ra (eaIndexedUpdate s ra rb) s) := by
  rw [eaIndexed, baseOrZero_of_ne_zero hzero]
  exact addsWrite_load_loadUpdate hzero hrt _

end BaseWrite

end Sys2Proof.Machine

namespace Sys2Proof.Proofs.CommonSemantics

open Sys2Proof Sys2Proof.Machine Sys2Proof.Safety

/-- Settles O37, row by row of the table. -/
theorem singleRegisterLoadsFollowTheScheme : Obligations.SingleRegisterLoadsFollowTheScheme :=
  fun _ _ _ => exec_eq_schemeExec

/-- Settles O40: with RA not 0 the two forms of each pair have one effective address, five by a displacement and six by an index. -/
theorem updateFormsAddTheBaseWrite : Obligations.UpdateFormsAddTheBaseWrite := by
  intro s rt ra rb d ds hzero hrt
  have hdisp {w : InstrWord} {n : Nat} {widen : BitVec (8 * n) → Word} (disp : Word) :=
    addsWrite_disp (s := s) (w := w) (widen := widen) hzero hrt disp
  have hindexed {w : InstrWord} {n : Nat} {widen : BitVec (8 * n) → Word} :=
    addsWrite_indexed (s := s) (w := w) (widen := widen) hzero hrt rb
  simp only [List.forall_mem_cons]
  exact ⟨hdisp (dispD d), hdisp (dispD d), hdisp (dispD d), hdisp (dispD d), hdisp (dispDS ds), hindexed, hindexed, hindexed, hindexed,
    hindexed, hindexed, List.forall_mem_nil _⟩

end Sys2Proof.Proofs.CommonSemantics
end

section
/-! PROOFS. Exceptions (60_exceptions.md): the first fault among an instruction's accesses is the fault of a valid form, each kind of fault has
its cause, and a fault of an instruction records the instruction's own word. -/

namespace Sys2Proof.Machine

/-! The first fault among accesses that are made in order (R196). -/

section FirstFault

variable {s : State} {f : Fault} {a : Word} {n : Nat} {as : List (Word × Nat)}

/-- Of the accesses `as`, made in order, the first that is not admitted meets the fault `f`. -/
def FirstFault (s : State) (as : List (Word × Nat)) (f : Fault) : Prop :=
  ∃ pre ea n post, as = pre ++ (ea, n) :: post ∧ (∀ p ∈ pre, Safety.Admitted s p.1 p.2) ∧ Safety.Meets s ea n f

theorem not_firstFault_nil : ¬ FirstFault s [] f := by
  rintro ⟨pre, ea, n, post, hsplit, -⟩
  simp at hsplit

/-- The first access faults, or it is admitted and the fault is that of the accesses after it. -/
theorem firstFault_cons : FirstFault s ((a, n) :: as) f ↔ Safety.Meets s a n f ∨ (Safety.Admitted s a n ∧ FirstFault s as f) := by
  constructor
  · rintro ⟨pre, ea, m, post, hsplit, hbefore, hmeets⟩
    cases pre with
    | nil =>
      cases hsplit
      exact .inl hmeets
    | cons p pre =>
      cases hsplit
      rw [List.forall_mem_cons] at hbefore
      obtain ⟨hfirst, hrest⟩ := hbefore
      exact .inr ⟨hfirst, pre, ea, m, post, rfl, hrest, hmeets⟩
  · rintro (hmeets | ⟨hadm, pre, ea, m, post, rfl, hbefore, hmeets⟩)
    · exact ⟨[], a, n, as, rfl, nofun, hmeets⟩
    · exact ⟨(a, n) :: pre, ea, m, post, rfl, List.forall_mem_cons.2 ⟨hadm, hbefore⟩, hmeets⟩

theorem firstFault_singleton : FirstFault s [(a, n)] f ↔ Safety.Meets s a n f := by
  simp only [firstFault_cons, not_firstFault_nil, and_false, or_false]

/-- A read faults just with the fault that its access meets. -/
theorem memRead_eq_error_iff : memRead s a n = .error f ↔ Safety.Meets s a n f :=
  ⟨fun h => meets_iff_check.2 (memRead_eq_error h), memRead_of_meets⟩

/-- What reads and then completes faults just where the read does. -/
theorem withRead_complete_eq_fault_iff {α : Type} {r : Except Fault α} {next : α → State} :
    withRead r (fun v => complete (next v)) = .fault f ↔ r = .error f := by
  constructor
  · intro h
    obtain hr | ⟨v, -, hv⟩ := withRead_eq_fault h
    · exact hr
    · exact absurd hv (complete_ne_fault _ _)
  · rintro rfl
    rfl

/-- The accesses of `n` consecutive words from `a` on. -/
def wordAccesses (a : Word) (n : Nat) : List (Word × Nat) :=
  (List.range n).map fun k => (a + BitVec.ofNat 64 (4 * k), 4)

theorem wordAccesses_succ (a : Word) (n : Nat) : wordAccesses a (n + 1) = (a, 4) :: wordAccesses (a + 4) n := by
  have hshift (k : Nat) : a + BitVec.ofNat 64 (4 * (k + 1)) = a + 4 + BitVec.ofNat 64 (4 * k) := by
    rw [Nat.mul_add, Nat.add_comm, BitVec.ofNat_add, ← BitVec.add_assoc]
    rfl
  simp only [wordAccesses, List.range_succ_eq_map, List.map_cons, List.map_map, Function.comp_def, Nat.succ_eq_add_one, hshift,
    Nat.mul_zero, BitVec.ofNat_eq_ofNat, BitVec.add_zero]

/-- Consecutive words are read in ascending order up to the first that meets a fault (46_load_multiple.md R181). -/
theorem readWords_eq_error_iff : readWords s a n = .error f ↔ FirstFault s (wordAccesses a n) f := by
  induction n generalizing a with
  | zero =>
    constructor
    · nofun
    · exact fun h => absurd h not_firstFault_nil
  | succ n ih =>
    rw [wordAccesses_succ, firstFault_cons, ← ih, ← memRead_eq_error_iff, admitted_iff_check]
    cases hcheck : check s a 4 with
    | some g => simp [readWords, memRead_of_check_some hcheck]
    | none =>
      simp only [readWords, memRead_of_check_none hcheck, reduceCtorEq, true_and, false_or]
      cases readWords s (a + 4) n <;> simp only [Except.error.injEq, reduceCtorEq]

end FirstFault

/-! The fault of a valid form: that of its accesses. -/

section ValidForms

variable {s : State} {f : Fault} {rt ra : RegNum}

theorem load_eq_fault_iff {n : Nat} {widen : BitVec (8 * n) → Word} {ea : Word} :
    load n widen rt ea s = .fault f ↔ FirstFault s [(ea, n)] f := by
  rw [load, withRead_complete_eq_fault_iff, memRead_eq_error_iff, firstFault_singleton]

theorem loadUpdate_eq_fault_iff {w : InstrWord} {n : Nat} {widen : BitVec (8 * n) → Word} {ea : Word}
    (hwf : updateWellFormed rt ra = true) : loadUpdate w n widen rt ra ea s = .fault f ↔ FirstFault s [(ea, n)] f := by
  obtain ⟨hzero, hrt⟩ := updateWellFormed_iff.1 hwf
  rw [loadUpdate_of_valid hzero hrt, withRead_complete_eq_fault_iff, memRead_eq_error_iff, firstFault_singleton]

theorem execLq_eq_fault_iff {rtp : RegNum} {dq : BitVec 12} (hwf : quadWellFormed rtp ra = true) :
    execLq rtp ra dq s = .fault f ↔ FirstFault s [(eaDisp s ra (dispDQ dq), 16)] f := by
  obtain ⟨heven, hne⟩ := quadWellFormed_iff.1 hwf
  rw [execLq_of_valid hne heven, withRead_complete_eq_fault_iff, memRead_eq_error_iff, firstFault_singleton]

theorem execLmw_eq_fault_iff {d : BitVec 16} (hwf : multipleWellFormed rt ra = true) (hle : s.le = false) :
    execLmw rt ra d s = .fault f ↔ FirstFault s (wordAccesses (eaDisp s ra (dispD d)) (32 - rt.val)) f := by
  rw [execLmw_of_bigEndian (multipleWellFormed_iff.1 hwf) hle, withRead_complete_eq_fault_iff, readWords_eq_error_iff]

/-- A valid form, `lmw` in Big-Endian mode, faults just with the first fault among its accesses. -/
theorem exec_eq_fault_iff_firstFault {i : Instr} (hwf : i.wf = true) (hmode : i.mnemonic = .lmw → s.le = false) :
    exec i s = .fault f ↔ FirstFault s (Safety.accesses i s) f := by
  cases i with
  | lbz | lbzx | lhz | lhzx | lha | lhax | lwz | lwzx | lwa | lwax | ld | ldx | lhbrx | lwbrx | ldbrx => exact load_eq_fault_iff
  | lbzu | lbzux | lhzu | lhzux | lhau | lhaux | lwzu | lwzux | lwaux | ldu | ldux => exact loadUpdate_eq_fault_iff hwf
  | lq => exact execLq_eq_fault_iff hwf
  | lmw => exact execLmw_eq_fault_iff hwf (hmode rfl)

end ValidForms

/-! The causes of the four faults (R190). -/

section Causes

variable {s : State} {i : Instr} {f : Fault}

theorem eq_fault_iff {o : Out} {g : Fault} (h : o = .fault g) : o = .fault f ↔ f = g := by
  rw [h, Host.Outcome.fault.injEq, eq_comm]

/-- `lq` with RTp = RA is no valid form. -/
theorem wf_lq_same (r : RegNum) (dq : BitVec 12) : (Instr.lq r r dq).wf = false := by
  simp [Instr.wf, quadWellFormed]

/-- `lmw` of a valid form in Little-Endian mode raises `Alignment` (R192). -/
theorem exec_of_lmw_littleEndian (hwf : i.wf = true) (hlmw : i.mnemonic = .lmw) (hle : s.le = true) :
    exec i s = .fault (.alignment (.word (encode i))) := by
  cases i with
  | lmw rt ra d => exact execLmw_of_littleEndian (multipleWellFormed_iff.1 hwf) hle
  | _ => cases hlmw

/-- A fault that an access meets records an address, and no word. -/
theorem faultAtWord_of_meets {a : Word} {n : Nat} (hmeets : Safety.Meets s a n f) (w : InstrWord) : faultAtWord w f = f := by
  obtain ⟨-, -, rfl⟩ | ⟨-, k, -, -, -, rfl⟩ := hmeets <;> rfl

end Causes

end Sys2Proof.Machine

namespace Sys2Proof.Proofs.Exceptions

open Sys2Proof Sys2Proof.Machine Sys2Proof.Safety

/-- Settles O32, in the order of the tests (R196): `lq` with RTp = RA, every other invalid form, `lmw` in Little-Endian mode, the accesses. In
each case one cause is possible and the others are not. -/
theorem faultsHaveTheirCauses : Obligations.FaultsHaveTheirCauses := by
  intro i s f
  by_cases hlq : ∃ r dq, i = .lq r r dq
  · obtain ⟨r, dq, rfl⟩ := hlq
    rw [eq_fault_iff (o := exec (.lq r r dq) s) (execLq_same r dq s)]
    simp [wf_lq_same]
  have hlq' : ∀ r dq, i ≠ .lq r r dq := fun r dq h => hlq ⟨r, dq, h⟩
  cases hwf : i.wf with
  | false =>
    rw [eq_fault_iff (exec_of_not_wf hwf hlq' s)]
    simp [hlq']
  | true =>
    by_cases hmode : i.mnemonic = .lmw ∧ s.le = true
    · obtain ⟨hlmw, hle⟩ := hmode
      rw [eq_fault_iff (exec_of_lmw_littleEndian hwf hlmw hle)]
      simp [hlq, hlmw, hle]
    · have hmode' : i.mnemonic = .lmw → s.le = false := by simpa using hmode
      rw [exec_eq_fault_iff_firstFault hwf hmode']
      constructor
      · exact fun h => .inr (.inr (.inr ⟨rfl, hmode', h⟩))
      · rintro (⟨-, h⟩ | ⟨-, h, -⟩ | ⟨-, hle, -, hlmw⟩ | ⟨-, -, h⟩)
        · exact absurd h hlq
        · cases h
        · exact absurd ⟨hlmw, hle⟩ hmode
        · exact h

end Sys2Proof.Proofs.Exceptions
end

section
/-! PROOFS. Steps and runs (70_reset_and_hazards.md): what a step does at the word it fetches, where it cannot run, the states a run starts
from, and how long a run is. Last the decode vectors of the spec (95_test_vectors.md section 4). -/

namespace Sys2Proof.Machine

/-! The step (R223). -/

section Step

variable {s : State}

/-- A fault of an instruction records the instruction's word in the default table, or no word (R190). -/
theorem recordWord_encode_exec (i : Instr) (s : State) : recordWord (encode i) (exec i s) = exec i s := by
  cases hexec : exec i s with
  | next t => rfl
  | refused r => rfl
  | fault f =>
    rw [recordWord_fault]
    obtain ⟨rfl, -⟩ | ⟨rfl, -⟩ | ⟨rfl, -⟩ | ⟨-, -, pre, ea, n, post, -, -, hmeets⟩ :=
      (Proofs.Exceptions.faultsHaveTheirCauses i s f).1 hexec
    · rfl
    · rfl
    · rfl
    · rw [faultAtWord_of_meets hmeets]

/-- A fetch that faults ends the step with its fault. -/
theorem step_of_fetch_error {f : Fault} (hend : s.pc ≠ s.platform.endAddr) (hfetch : fetch s = .error f) : step s = .fault f := by
  simp only [step, if_neg hend, hfetch, withRead, raise]

/-- At `EndAddr` nothing is fetched (R224). -/
theorem step_at_endAddr (hend : s.pc = s.platform.endAddr) : step s = .refused .endOfRun :=
  if_pos hend

/-- Before `EndAddr` no step is refused (log 2). -/
theorem step_ne_refused (hend : s.pc ≠ s.platform.endAddr) (q : Refusal) : step s ≠ .refused q := by
  intro h
  rw [step, if_neg hend] at h
  obtain ⟨w, -, hw⟩ := withRead_eq_refused h
  split at hw
  · exact exec_ne_refused _ _ _ (recordWord_eq_refused.1 hw)
  · exact raise_ne_refused _ _ hw

end Step

/-! Runs (R224): each step takes `pc` one instruction nearer to `EndAddr`. -/

section Runs

variable {s t : State} {k : Nat}

theorem pcAligned_of_advancedBy_four (hpc : Safety.PcAligned s) (h : AdvancedBy 4 s t) : Safety.PcAligned t := by
  obtain ⟨hpc, hend⟩ := hpc
  refine ⟨?_, by rwa [h.platform]⟩
  rw [h.pc, BitVec.toNat_add, BitVec.toNat_ofNat]
  omega

/-- `EndAddr` is as many instructions away as there are steps to it. -/
theorem toNat_endAddr_sub_pc (hpc : Safety.PcAligned s) : (s.platform.endAddr - s.pc).toNat = 4 * Safety.stepsToEnd s := by
  obtain ⟨hpc, hend⟩ := hpc
  rw [Safety.stepsToEnd, BitVec.toNat_sub]
  omega

theorem stepsToEnd_eq_zero_iff (hpc : Safety.PcAligned s) : Safety.stepsToEnd s = 0 ↔ s.pc = s.platform.endAddr := by
  have hdist := toNat_endAddr_sub_pc hpc
  constructor
  · intro hzero
    bv_omega
  · intro hend
    rw [Safety.stepsToEnd, hend, BitVec.sub_self]
    rfl

theorem pc_ne_endAddr_of_lt_stepsToEnd (hpc : Safety.PcAligned s) (hk : k < Safety.stepsToEnd s) : s.pc ≠ s.platform.endAddr :=
  mt (stepsToEnd_eq_zero_iff hpc).2 (Nat.ne_zero_of_lt hk)

/-- A step leaves one step less to go. -/
theorem stepsToEnd_of_advancedBy_four (hpc : Safety.PcAligned s) (hend : s.pc ≠ s.platform.endAddr) (h : AdvancedBy 4 s t) :
    Safety.stepsToEnd s = Safety.stepsToEnd t + 1 := by
  have hs := toNat_endAddr_sub_pc hpc
  have ht := toNat_endAddr_sub_pc (pcAligned_of_advancedBy_four hpc h)
  have hpos := mt (stepsToEnd_eq_zero_iff hpc).1 hend
  rw [h.pc, h.platform] at ht
  bv_omega

theorem runTo_of_end (hend : s.pc = s.platform.endAddr) : Safety.runTo k s = .ended s := by
  cases k <;> exact if_pos hend

theorem runTo_succ_of_next (hend : s.pc ≠ s.platform.endAddr) (hstep : step s = .next t) : Safety.runTo (k + 1) s = Safety.runTo k t := by
  simp only [Safety.runTo, if_neg hend, hstep]

theorem runTo_succ_of_fault {f : Fault} (hend : s.pc ≠ s.platform.endAddr) (hstep : step s = .fault f) :
    Safety.runTo (k + 1) s = .faulted f s := by
  simp only [Safety.runTo, if_neg hend, hstep]

/-- A run with as many steps as `EndAddr` is away gets there, or stands at an instruction that faults. -/
theorem runTo_stepsToEnd (hpc : Safety.PcAligned s) (hk : Safety.stepsToEnd s = k) :
    (∃ t, Safety.runTo k s = .ended t ∧ t.pc = s.platform.endAddr) ∨
      ∃ f t, Safety.runTo k s = .faulted f t ∧ step t = .fault f := by
  induction k generalizing s with
  | zero =>
    have hend := (stepsToEnd_eq_zero_iff hpc).1 hk
    exact .inl ⟨s, runTo_of_end hend, hend⟩
  | succ k ih =>
    have hend := pc_ne_endAddr_of_lt_stepsToEnd (k := k) hpc (by omega)
    cases hstep : step s with
    | next t =>
      have hadv := step_advancedBy hstep
      have hleft := stepsToEnd_of_advancedBy_four hpc hend hadv
      rw [runTo_succ_of_next hend hstep, ← hadv.platform]
      exact ih (pcAligned_of_advancedBy_four hpc hadv) (by omega)
    | fault f => exact .inr ⟨f, s, runTo_succ_of_fault hend hstep, hstep⟩
    | refused q => exact absurd hstep (step_ne_refused hend q)

/-- With fewer steps than `EndAddr` is away a run does not get there. -/
theorem runTo_ne_ended (hpc : Safety.PcAligned s) (hk : k < Safety.stepsToEnd s) (t : State) : Safety.runTo k s ≠ .ended t := by
  induction k generalizing s with
  | zero =>
    rw [Safety.runTo, if_neg (pc_ne_endAddr_of_lt_stepsToEnd hpc hk)]
    nofun
  | succ k ih =>
    have hend := pc_ne_endAddr_of_lt_stepsToEnd hpc hk
    cases hstep : step s with
    | next u =>
      have hadv := step_advancedBy hstep
      have hleft := stepsToEnd_of_advancedBy_four hpc hend hadv
      rw [runTo_succ_of_next hend hstep]
      exact ih (pcAligned_of_advancedBy_four hpc hadv) (by omega)
    | fault f =>
      rw [runTo_succ_of_fault hend hstep]
      nofun
    | refused q => exact absurd hstep (step_ne_refused hend q)

end Runs

end Sys2Proof.Machine

namespace Sys2Proof.Proofs.StepsAndRuns

open Sys2Proof Sys2Proof.Machine Sys2Proof.Safety

/-- Settles O51, by the induction over runs: a step leaves one step less to go. -/
theorem runEndsOnSchedule : Obligations.RunEndsOnSchedule :=
  fun _ hpc => ⟨runTo_stepsToEnd hpc rfl, fun _ hk => runTo_ne_ended hpc hk⟩

/-- Settles O45: by the default table the word that decodes to an instruction is the one its faults record. -/
theorem stepRunsTheDecodedInstruction : Obligations.StepRunsTheDecodedInstruction := by
  rintro s w i hend hadm rfl hdec
  have hfetch := (Storage.fetchReadsTheWordAtPc s).1 hadm
  have hstep := step_of_decoded hend hfetch hdec
  refine ⟨hstep, fun t hnext => ?_, fun htable => ?_⟩
  · rw [hstep, hnext, recordWord_next]
  · rw [htable] at hdec
    rw [hstep, ← encode_of_decode hdec, recordWord_encode_exec]

/-- Settles O46: the tests of a step before it executes, in their order. -/
theorem stepStopsWhereItCannotRun : Obligations.StepStopsWhereItCannotRun := by
  intro s
  obtain ⟨hword, hfault⟩ := Storage.fetchReadsTheWordAtPc s
  refine ⟨step_at_endAddr, fun hend => ⟨fun f hmeets => step_of_fetch_error hend (hfault f hmeets), fun hadm e herr => ?_⟩⟩
  obtain ⟨r, -, -, hok⟩ | ⟨hno, -⟩ := decodeBy_cases s.platform.decodeTable (word s.le s.mem s.pc)
  · cases hok.symm.trans herr
  · exact step_of_no_row hend (hword hadm) hno

/-- A start state holds its parameters. -/
theorem inv_start (x : Vector Word 32) {e : Word} (le : Bool) {m : Memory} {p : Config.Platform} (hentry : e.toNat % 4 = 0)
    (hend : p.endAddr.toNat % 4 = 0) (hmem : Memory.wf m = true) : Inv (State.start x e le m p) :=
  ⟨⟨hentry, hend⟩, hmem⟩

/-- Settles O48: the reset state is a start state. -/
theorem startStatesHaveTheInvariant : Obligations.StartStatesHaveTheInvariant :=
  ⟨inv_start _ _ rfl rfl rfl, fun x _ le _ _ => inv_start x le⟩

/-- Settles O5: each word that decodes is the word of its instruction, and each of the others matches no row. -/
theorem decodeVectorsOfTheSpec : Obligations.DecodeVectorsOfTheSpec := by
  refine ⟨decode_encode (.lbz 3 4 0xFFFF), decode_encode (.ldu 3 4 2), decode_encode (.lwa 3 4 0x3FFF), decode_encode (.lq 6 4 0xFFF),
    decode_encode (.lbzx 3 4 5), decode_encode (.lhbrx 3 4 5), decode_encode (.lwaux 31 31 31), decode_encode (.lmw 31 0 0x1010),
    decodeBy_of_no_row ?_, decodeBy_of_no_row ?_, decodeBy_of_no_row ?_, decodeBy_of_no_row ?_⟩
  all_goals decide

end Sys2Proof.Proofs.StepsAndRuns
end
